-- ==== Sys2Proof/Word.lean ====
section
/-! DEFINITION. The two word types of the core: registers, addresses and immediates are 64-bit
bit-vectors (00_scope.md R12, decision D5 and D27), and memory is addressed by the byte (20_memory.md R40). -/

namespace Sys2Proof

/-- A register value, immediate, address or ALU operand: `XLEN = AW = 64` bits (00_scope.md R10, R12). -/
abbrev Word := BitVec 64

/-- The addressable unit of memory (20_memory.md R40). -/
abbrev Byte := BitVec 8

/-- A 4-bit half of a byte (00_scope.md R11). -/
abbrev Nibble := BitVec 4

end Sys2Proof
end

