-- ==== Sys2Proof/Config.lean ====
section
/-! DEFINITION. What one implementation fixes: the parameters of 00_scope.md R10, and the one free
value the spec leaves (20_memory.md R46's draw). -/

namespace Sys2Proof

/-- The hardware's parameters (00_scope.md R10). "A model takes `MEMSIZE` as an argument", and a Bool
parameter may be taken as one "to check a claim under both readings", so all of them are data that
`State` carries and no step writes (log 1). -/
structure Params where
  /-- `MEMSIZE`: the memory's capacity in bytes, a positive natural (D4). -/
  memSize : Nat
  /-- `FETCH_BOUND_INCLUSIVE`: the decoder's bound check reads `>=` instead of `>` (D8, C3). -/
  fetchBoundInclusive : Bool
  /-- `STRADDLE_FAULTS`: an 8-byte access that runs past the capacity faults (D7, C4). -/
  straddleFaults : Bool
  /-- `LOGIC_CLEARS_OF`: ANDQ and XORQ clear the overflow flag instead of leaving it (D12). -/
  logicClearsOf : Bool
  /-- `POPQ_RSP_GETS_INCREMENT`: `popq %rsp` leaves the incremented stack pointer (D15). -/
  popqRspGetsIncrement : Bool
  /-- `PUSHQ_RA_ALLOWS_NOREG`: the decoder accepts `ra = 15` for PUSHQ (D16). -/
  pushqRaAllowsNoreg : Bool
  /-- `POPQ_RA_ALLOWS_NOREG`: the decoder accepts `ra = 15` for POPQ (D16). -/
  popqRaAllowsNoreg : Bool
  /-- `NOREG_READ_VALUE`: what register id 15 reads as (D6). -/
  noregReadValue : Word
deriving DecidableEq, Repr

/-- `MEMSIZE` is a positive natural (00_scope.md R10). -/
abbrev Params.wf (p : Params) : Prop := 0 < p.memSize

/-- FREE VALUE (log 8): the byte a straddling read returns for an address at or beyond `MEMSIZE` when
`STRADDLE_FAULTS` is false (20_memory.md R46: "an unconstrained value ... (a draw)"). It has no body, so
no proof can see what it is; each draw uses an index of its own. -/
opaque Config.freeByte : Nat → Byte

end Sys2Proof
end

