-- ==== Sys2Proof/Machine/Params.lean ====
section
/-! DEFINITION. The parameter values this spec uses (00_scope.md R10). -/

namespace Sys2Proof.Machine

/-- Every parameter at the default of 00_scope.md R10, which every vector of 95_test_vectors.md assumes
(log 2). -/
def defaultParams : Params where
  memSize := 4096
  fetchBoundInclusive := false
  straddleFaults := true
  logicClearsOf := true
  popqRspGetsIncrement := true
  pushqRaAllowsNoreg := true
  popqRaAllowsNoreg := false
  noregReadValue := 0

/-- The entry point that `State.reset` starts from. The spec fixes none (20_memory.md R42: the loader's
choice); DESIGN CHOICE 0, log 3, the entry point of every program of 95_test_vectors.md section 3. -/
def defaultEntryPoint : Word := 0

end Sys2Proof.Machine
end

