-- ==== Sys2Proof/Syntax.lean ====
section
/-! DEFINITION. The syntax of the core: register ids, conditions, ALU operations, instruction classes, the
33 instructions of spec/opcode_table.json, and the decoder's record (30_encoding.md R62). -/

namespace Sys2Proof

/-- A register id, 0 to 15 in this order (10_state.md R20, R21); `noreg` is id 15, the sentinel that
names no storage. -/
inductive RegId where
  | rax | rcx | rdx | rbx | rsp | rbp | rsi | rdi
  | r8 | r9 | r10 | r11 | r12 | r13 | r14
  | noreg
deriving DecidableEq, Repr

/-- The condition kinds shared by CMOV and JUMP (43_alu.md R156). -/
inductive Cond where
  | always | le | l | e | ne | ge | g
deriving DecidableEq, Repr

/-- The ALU operations (43_alu.md R157). -/
inductive AluOp where
  | add | sub | and | xor
deriving DecidableEq, Repr

/-- The 13 instruction classes of 30_encoding.md R63, and INVALID (R62, C1: 14 values). -/
inductive Icode where
  | halt | nop | cmov | irmovq | rmmovq | mrmovq | opq | jump | call | ret | pushq | popq | iotrap
  | invalid
deriving DecidableEq, Repr

/-- The instructions: one constructor per row of spec/opcode_table.json. The operand order is the
disassembler's (47_disassembler.md R214); `disp`, `imm` and `dest` are the record's valC. -/
inductive Instr where
  | halt
  | nop
  | rrmovq (ra rb : RegId)
  | cmovle (ra rb : RegId)
  | cmovl (ra rb : RegId)
  | cmove (ra rb : RegId)
  | cmovne (ra rb : RegId)
  | cmovge (ra rb : RegId)
  | cmovg (ra rb : RegId)
  | irmovq (imm : Word) (rb : RegId)
  | rmmovq (ra : RegId) (disp : Word) (rb : RegId)
  | mrmovq (disp : Word) (rb : RegId) (ra : RegId)
  | addq (ra rb : RegId)
  | subq (ra rb : RegId)
  | andq (ra rb : RegId)
  | xorq (ra rb : RegId)
  | jmp (dest : Word)
  | jle (dest : Word)
  | jl (dest : Word)
  | je (dest : Word)
  | jne (dest : Word)
  | jge (dest : Word)
  | jg (dest : Word)
  | call (dest : Word)
  | ret
  | pushq (ra : RegId)
  | popq (ra : RegId)
  | iotrap0
  | iotrap1
  | iotrap2
  | iotrap3
  | iotrap4
  | iotrap5
deriving DecidableEq, Repr

/-- The decoded instruction record of 30_encoding.md R62. `ra` and `rb` are 4-bit ids, 15 written `noreg`;
`valP` is the absolute address after the instruction (C2). -/
structure Record where
  icode : Icode
  ifun : Nibble
  ra : RegId
  rb : RegId
  valC : Word
  valP : Word
deriving DecidableEq, Repr

end Sys2Proof
end

