-- ==== Sys2Proof/Machine/State.lean ====
section
/-! DEFINITION. The state of the core, all of it plain data (10_state.md, 20_memory.md R40), the ways a step can
stop, and the state after reset (10_state.md R32). -/

namespace Sys2Proof.Machine

/-- The 15 general registers by their architectural names (10_state.md R20, R21). Id 15 names no storage. -/
structure RegFile where
  rax : Word
  rcx : Word
  rdx : Word
  rbx : Word
  rsp : Word
  rbp : Word
  rsi : Word
  rdi : Word
  r8 : Word
  r9 : Word
  r10 : Word
  r11 : Word
  r12 : Word
  r13 : Word
  r14 : Word
deriving DecidableEq, Repr

/-- The run status (10_state.md R27); the last three are terminal. The spec gives no numbers (D23). -/
inductive Status where
  | running
  | halted
  | invalidInstruction
  | addressError
deriving DecidableEq, Repr

/-- The memory array `M[0]` .. `M[MEMSIZE-1]` (20_memory.md R40) as its non-zero bytes, addresses rising. -/
abbrev Memory := List Host.Cell

/-- The complete state of the core. -/
structure State where
  /-- The implementation parameters, fixed for a machine (00_scope.md R10; the model's own field, log 1). -/
  params : Params
  /-- The register file (10_state.md R20). -/
  regs : RegFile
  /-- The program counter (10_state.md R25). -/
  pc : Word
  /-- Z (10_state.md R26). -/
  zeroFlag : Bool
  /-- S (10_state.md R26). -/
  signFlag : Bool
  /-- O (10_state.md R26). -/
  overflowFlag : Bool
  /-- The run status (10_state.md R27). -/
  status : Status
  /-- The driver's instruction count (10_state.md R30). -/
  count : Nat
  /-- The record of the last fetched instruction (10_state.md R31), none before the first step (R32). -/
  last : Option Record
  /-- The memory (20_memory.md R40). -/
  mem : Memory
  /-- How many free bytes straddling reads have drawn (the model's own field, log 8). -/
  draws : Nat
deriving DecidableEq, Repr

/-- Why the machine stops with no next state. The core's own faults are no such stop: each is a next state
with a terminal status (60_exceptions.md R240). -/
inductive Fault where
  /-- Raised by `step` on a state whose status is already terminal: "the step that sets a terminal status is
  the last step" (60_exceptions.md R244; 40_sequencer.md R106). Safe: the spec has no such step. -/
  | runEnded (status : Status)
deriving DecidableEq, Repr

/-- Why an instruction has no meaning here. -/
inductive Refusal where
  /-- Raised by `exec` for an instruction that the model has not reached. Safe; no arm answers it. -/
  | notModelled (mnemonic : String)
deriving DecidableEq, Repr

/-- The register file after reset: every register 0 (10_state.md R32). -/
def RegFile.zero : RegFile where
  rax := 0
  rcx := 0
  rdx := 0
  rbx := 0
  rsp := 0
  rbp := 0
  rsi := 0
  rdi := 0
  r8 := 0
  r9 := 0
  r10 := 0
  r11 := 0
  r12 := 0
  r13 := 0
  r14 := 0

/-- The state after reset with parameters `p`, the memory image `image` and the entry point `entry`, both
supplied by the loader (10_state.md R32, 70_reset_and_hazards.md R260). -/
def State.resetWith (p : Params) (image : Memory) (entry : Word) : State where
  params := p
  regs := RegFile.zero
  pc := entry
  zeroFlag := false
  signFlag := false
  overflowFlag := false
  status := .running
  count := 0
  last := none
  mem := image
  draws := 0

/-- The machine right after reset: the default parameters, memory zero-filled with no image loaded, and the
entry point of log 3. -/
def State.reset : State := State.resetWith defaultParams [] defaultEntryPoint

end Sys2Proof.Machine
end

