-- ==== Sys2Proof/Machine/Flags.lean ====
section
/-! DEFINITION. The ALU, its flag logic and the condition predicates (43_alu.md R155, R156, R157). -/

namespace Sys2Proof.Machine

/-- `valE = valB op valA` (43_alu.md R157, R151 to R154); the order matters for SUB. -/
def aluResult (op : AluOp) (valA valB : Word) : Word :=
  match op with
  | .add => valB + valA
  | .sub => valB - valA
  | .and => valB &&& valA
  | .xor => valB ^^^ valA

/-- `overflow_flag` after an operation (43_alu.md R155): signed overflow for ADD and SUB; AND and XOR clear it,
or leave `old`, as `clears` (LOGIC_CLEARS_OF, D12) says. -/
def aluOverflow (clears : Bool) (op : AluOp) (valA valB : Word) (old : Bool) : Bool :=
  match op with
  | .add => (valA.msb == valB.msb) && ((valB + valA).msb != valB.msb)
  | .sub => (valA.msb != valB.msb) && ((valB - valA).msb != valB.msb)
  | .and | .xor => if clears then false else old

/-- The flag write of decode_execute for OPQ (43_alu.md R155): S from the result's top bit, Z from its being 0,
and O. -/
def State.setAluFlags (s : State) (op : AluOp) (valA valB : Word) : State :=
  { s with
    signFlag := (aluResult op valA valB).msb
    zeroFlag := aluResult op valA valB == 0
    overflowFlag := aluOverflow s.params.logicClearsOf op valA valB s.overflowFlag }

/-- The condition predicate on Z, S and O (43_alu.md R156). -/
def Cond.holds (c : Cond) (z s o : Bool) : Bool :=
  match c with
  | .always => true
  | .le => z || (s && !o) || (!s && o)
  | .l => (s && !o) || (!s && o)
  | .e => z
  | .ne => !z
  | .ge => s == o
  | .g => !z && (s == o)

/-- The condition read from the flags at the start of the step (43_alu.md R156). -/
def State.condition (s : State) (c : Cond) : Bool :=
  Cond.holds c s.zeroFlag s.signFlag s.overflowFlag

end Sys2Proof.Machine
end

