-- ==== Sys2Proof/Machine/Bytes.lean ====
section
/-! DEFINITION. Nibbles, bytes and little-endian words (00_scope.md R11, R13; 20_memory.md R43, R44). -/

namespace Sys2Proof

/-- The high nibble `b[7:4]` (00_scope.md R11). -/
def hiNibble (b : Byte) : Nibble := b.extractLsb' 4 4

/-- The low nibble `b[3:0]` (00_scope.md R11). -/
def loNibble (b : Byte) : Nibble := b.extractLsb' 0 4

/-- The byte `hi ++ lo`, the first operand in the high bits (00_scope.md R11). -/
def byteOfNibbles (hi lo : Nibble) : Byte := hi ++ lo

/-- Byte `k` of a word, `v[8k+7:8k]` (20_memory.md R44). -/
def wordByte (v : Word) (k : Nat) : Byte := v.extractLsb' (8 * k) 8

/-- The eight bytes of a word in memory order, least significant first (20_memory.md R44). -/
def wordBytes (v : Word) : List Byte :=
  [wordByte v 0, wordByte v 1, wordByte v 2, wordByte v 3,
   wordByte v 4, wordByte v 5, wordByte v 6, wordByte v 7]

/-- The word `f 7 ++ f 6 ++ ... ++ f 0` of eight bytes in memory order (20_memory.md R43). -/
def wordOfBytes (f : Nat → Byte) : Word :=
  f 7 ++ f 6 ++ f 5 ++ f 4 ++ f 3 ++ f 2 ++ f 1 ++ f 0

end Sys2Proof
end

