-- ==== Sys2Proof/WellFormed.lean ====
section
/-! DEFINITION. Which instructions an encoding exists for: the register checks of 30_encoding.md R70, R71, R77.
Every other field of every constructor is free (R72, R73, R74). -/

namespace Sys2Proof

/-- The id names storage (10_state.md R20: ids 0 to 14). -/
def RegId.isReg : RegId → Bool
  | .noreg => false
  | .rax | .rcx | .rdx | .rbx | .rsp | .rbp | .rsi | .rdi
  | .r8 | .r9 | .r10 | .r11 | .r12 | .r13 | .r14 => true

/-- The decoder's register checks, per instruction: CMOV needs both ids below 15 (R70), IRMOVQ its
destination (R71), PUSHQ and POPQ as their parameter says (R77, D16); the others accept every id (R72, R73). -/
def Instr.wellFormed (p : Params) : Instr → Bool
  | .rrmovq ra rb | .cmovle ra rb | .cmovl ra rb | .cmove ra rb
  | .cmovne ra rb | .cmovge ra rb | .cmovg ra rb => ra.isReg && rb.isReg
  | .irmovq _ rb => rb.isReg
  | .pushq ra => p.pushqRaAllowsNoreg || ra.isReg
  | .popq ra => p.popqRaAllowsNoreg || ra.isReg
  | .rmmovq _ _ _ | .mrmovq _ _ _
  | .addq _ _ | .subq _ _ | .andq _ _ | .xorq _ _
  | .jmp _ | .jle _ | .jl _ | .je _ | .jne _ | .jge _ | .jg _
  | .call _ | .ret | .halt | .nop
  | .iotrap0 | .iotrap1 | .iotrap2 | .iotrap3 | .iotrap4 | .iotrap5 => true

end Sys2Proof
end

