-- ==== Sys2Proof/Decode.lean ====
section
/-! DEFINITION. The decoder's extraction and validation (30_encoding.md R60 to R79, R84), total on any bytes and
rejecting by name, and after it the encoder, written from the same tables. The checks that need the pc and the
capacity (R68, R81) are in Machine/Fetch.lean. -/

namespace Sys2Proof

/-- Register ids by number (10_state.md R21). -/
def RegId.ofNibble (n : Nibble) : RegId :=
  match n.toNat with
  | 0 => .rax | 1 => .rcx | 2 => .rdx | 3 => .rbx | 4 => .rsp | 5 => .rbp | 6 => .rsi | 7 => .rdi
  | 8 => .r8 | 9 => .r9 | 10 => .r10 | 11 => .r11 | 12 => .r12 | 13 => .r13 | 14 => .r14
  | _ => .noreg

/-- Class codes, the high nibble of byte 0; 0xD to 0xF are unrecognized (30_encoding.md R63). -/
def Icode.ofNibble (n : Nibble) : Option Icode :=
  match n.toNat with
  | 0 => some .halt | 1 => some .nop | 2 => some .cmov | 3 => some .irmovq
  | 4 => some .rmmovq | 5 => some .mrmovq | 6 => some .opq | 7 => some .jump
  | 8 => some .call | 9 => some .ret | 10 => some .pushq | 11 => some .popq
  | 12 => some .iotrap
  | _ => none

/-- The instruction's length in bytes, fixed by its class (30_encoding.md R61, R63, R86). INVALID has none. -/
def Icode.length : Icode → Nat
  | .halt | .nop | .ret | .iotrap => 1
  | .cmov | .opq | .pushq | .popq => 2
  | .jump | .call => 9
  | .irmovq | .rmmovq | .mrmovq => 10
  | .invalid => 0

/-- The class has a register byte: formats F2 and F10 (30_encoding.md R61). -/
def Icode.hasRegByte : Icode → Bool
  | .cmov | .opq | .pushq | .popq | .irmovq | .rmmovq | .mrmovq => true
  | .halt | .nop | .ret | .iotrap | .jump | .call | .invalid => false

/-- The offset of the class's valC field: 1 in F9, 2 in F10, none in F1 and F2 (30_encoding.md R61, R65). -/
def Icode.valCOffset : Icode → Option Nat
  | .jump | .call => some 1
  | .irmovq | .rmmovq | .mrmovq => some 2
  | .halt | .nop | .ret | .iotrap | .cmov | .opq | .pushq | .popq | .invalid => none

/-- The bad sentinel: the number of valid function codes of the class (30_encoding.md R66). -/
def Icode.badSentinel : Icode → Nat
  | .cmov | .jump => 7
  | .opq => 4
  | .iotrap => 6
  | .halt | .nop | .irmovq | .rmmovq | .mrmovq | .call | .ret | .pushq | .popq => 1
  | .invalid => 0

/-- Byte `k` of a sequence; a byte past its end counts as 0 (30_encoding.md R82). -/
def byteAt (bs : List Byte) (k : Nat) : Byte := bs.getD k 0

/-- The field extraction of 30_encoding.md R67, step (3), on the bytes from `pc` on: `none` for an
unrecognized class. A class without a register byte has `ra = rb = 15`, one without valC has `valC = 0` (R62). -/
def rawRecord (pc : Word) (bs : List Byte) : Option Record :=
  match Icode.ofNibble (hiNibble (byteAt bs 0)) with
  | none => none
  | some c =>
    some
      { icode := c
        ifun := loNibble (byteAt bs 0)
        ra := if c.hasRegByte then RegId.ofNibble (hiNibble (byteAt bs 1)) else .noreg
        rb := if c.hasRegByte then RegId.ofNibble (loNibble (byteAt bs 1)) else .noreg
        valC :=
          match c.valCOffset with
          | some off => wordOfBytes (fun k => byteAt bs (off + k))
          | none => 0
        valP := pc + BitVec.ofNat 64 c.length }

/-- The function-code check: below the class's bad sentinel, which for a class of one function code says
that it is 0 (30_encoding.md R66). -/
def Record.functionOk (r : Record) : Bool := decide (r.ifun.toNat < r.icode.badSentinel)

/-- The register checks of 30_encoding.md R70 to R77, "each opcode's specific comparison as tabulated". -/
def Record.registersOk (p : Params) (r : Record) : Bool :=
  match r.icode with
  | .cmov => r.ra.isReg && r.rb.isReg
  | .irmovq => !r.ra.isReg && r.rb.isReg
  | .pushq => !r.rb.isReg && (p.pushqRaAllowsNoreg || r.ra.isReg)
  | .popq => !r.rb.isReg && (p.popqRaAllowsNoreg || r.ra.isReg)
  | .rmmovq | .mrmovq | .opq => true
  | .halt | .nop | .jump | .call | .ret | .iotrap => true
  | .invalid => false

/-- The class's validity condition (30_encoding.md R69 to R78). -/
def Record.valid (p : Params) (r : Record) : Bool := r.functionOk && r.registersOk p

/-- The instruction a record stands for: its class and function code (30_encoding.md R63, R64) with its
operands; `none` for INVALID and for a function code outside the class's range. -/
def Record.instr? (r : Record) : Option Instr :=
  match r.icode, r.ifun.toNat with
  | .halt, 0 => some .halt
  | .nop, 0 => some .nop
  | .cmov, 0 => some (.rrmovq r.ra r.rb)
  | .cmov, 1 => some (.cmovle r.ra r.rb)
  | .cmov, 2 => some (.cmovl r.ra r.rb)
  | .cmov, 3 => some (.cmove r.ra r.rb)
  | .cmov, 4 => some (.cmovne r.ra r.rb)
  | .cmov, 5 => some (.cmovge r.ra r.rb)
  | .cmov, 6 => some (.cmovg r.ra r.rb)
  | .irmovq, 0 => some (.irmovq r.valC r.rb)
  | .rmmovq, 0 => some (.rmmovq r.ra r.valC r.rb)
  | .mrmovq, 0 => some (.mrmovq r.valC r.rb r.ra)
  | .opq, 0 => some (.addq r.ra r.rb)
  | .opq, 1 => some (.subq r.ra r.rb)
  | .opq, 2 => some (.andq r.ra r.rb)
  | .opq, 3 => some (.xorq r.ra r.rb)
  | .jump, 0 => some (.jmp r.valC)
  | .jump, 1 => some (.jle r.valC)
  | .jump, 2 => some (.jl r.valC)
  | .jump, 3 => some (.je r.valC)
  | .jump, 4 => some (.jne r.valC)
  | .jump, 5 => some (.jge r.valC)
  | .jump, 6 => some (.jg r.valC)
  | .call, 0 => some (.call r.valC)
  | .ret, 0 => some .ret
  | .pushq, 0 => some (.pushq r.ra)
  | .popq, 0 => some (.popq r.ra)
  | .iotrap, 0 => some .iotrap0
  | .iotrap, 1 => some .iotrap1
  | .iotrap, 2 => some .iotrap2
  | .iotrap, 3 => some .iotrap3
  | .iotrap, 4 => some .iotrap4
  | .iotrap, 5 => some .iotrap5
  | _, _ => none

/-- Why a byte sequence is not an instruction. -/
inductive DecodeError where
  /-- The class nibble is 0xD, 0xE or 0xF (30_encoding.md R79). -/
  | unrecognizedClass
  /-- The function code is not below the class's bad sentinel (R66). -/
  | badFunctionCode
  /-- A register id is outside the class's bound (R70, R71, R77). -/
  | badRegister
  /-- The sequence ends before the instruction does. No rule of the spec: the core's decoder always has
  bytes to read (R82), a byte list given by hand may not (log 17). -/
  | truncated
deriving DecidableEq, Repr

/-- Decode the instruction at the head of a byte sequence, and give the bytes after it (30_encoding.md R67
less its pc and capacity checks). Total: any bytes give an instruction or a reason. -/
def decode (p : Params) (bs : List Byte) : Except DecodeError (Instr × List Byte) :=
  if bs.isEmpty then .error .truncated
  else
    match rawRecord 0 bs with
    | none => .error .unrecognizedClass
    | some r =>
      if bs.length < r.icode.length then .error .truncated
      else if !r.functionOk then .error .badFunctionCode
      else if !r.registersOk p then .error .badRegister
      else
        match r.instr? with
        | some i => .ok (i, bs.drop r.icode.length)
        | none => .error .badFunctionCode

/-- The class of an instruction (30_encoding.md R64). -/
def Instr.icode : Instr → Icode
  | .halt => .halt
  | .nop => .nop
  | .rrmovq _ _ | .cmovle _ _ | .cmovl _ _ | .cmove _ _ | .cmovne _ _ | .cmovge _ _ | .cmovg _ _ => .cmov
  | .irmovq _ _ => .irmovq
  | .rmmovq _ _ _ => .rmmovq
  | .mrmovq _ _ _ => .mrmovq
  | .addq _ _ | .subq _ _ | .andq _ _ | .xorq _ _ => .opq
  | .jmp _ | .jle _ | .jl _ | .je _ | .jne _ | .jge _ | .jg _ => .jump
  | .call _ => .call
  | .ret => .ret
  | .pushq _ => .pushq
  | .popq _ => .popq
  | .iotrap0 | .iotrap1 | .iotrap2 | .iotrap3 | .iotrap4 | .iotrap5 => .iotrap

/-- Register numbers (10_state.md R21). -/
def RegId.nibble : RegId → Nibble
  | .rax => 0x0#4 | .rcx => 0x1#4 | .rdx => 0x2#4 | .rbx => 0x3#4
  | .rsp => 0x4#4 | .rbp => 0x5#4 | .rsi => 0x6#4 | .rdi => 0x7#4
  | .r8 => 0x8#4 | .r9 => 0x9#4 | .r10 => 0xA#4 | .r11 => 0xB#4
  | .r12 => 0xC#4 | .r13 => 0xD#4 | .r14 => 0xE#4 | .noreg => 0xF#4

/-- The register byte `ra:rb`, `ra` in the high nibble (30_encoding.md R61). -/
def regByte (ra rb : RegId) : Byte := byteOfNibbles ra.nibble rb.nibble

/-- The bytes of an instruction in memory order, from the opcode table and 30_encoding.md R61, R63, R64. -/
def encode : Instr → List Byte
  | .halt => [0x00#8]
  | .nop => [0x10#8]
  | .rrmovq ra rb => [0x20#8, regByte ra rb]
  | .cmovle ra rb => [0x21#8, regByte ra rb]
  | .cmovl ra rb => [0x22#8, regByte ra rb]
  | .cmove ra rb => [0x23#8, regByte ra rb]
  | .cmovne ra rb => [0x24#8, regByte ra rb]
  | .cmovge ra rb => [0x25#8, regByte ra rb]
  | .cmovg ra rb => [0x26#8, regByte ra rb]
  | .irmovq imm rb => [0x30#8, regByte .noreg rb] ++ wordBytes imm
  | .rmmovq ra disp rb => [0x40#8, regByte ra rb] ++ wordBytes disp
  | .mrmovq disp rb ra => [0x50#8, regByte ra rb] ++ wordBytes disp
  | .addq ra rb => [0x60#8, regByte ra rb]
  | .subq ra rb => [0x61#8, regByte ra rb]
  | .andq ra rb => [0x62#8, regByte ra rb]
  | .xorq ra rb => [0x63#8, regByte ra rb]
  | .jmp dest => [0x70#8] ++ wordBytes dest
  | .jle dest => [0x71#8] ++ wordBytes dest
  | .jl dest => [0x72#8] ++ wordBytes dest
  | .je dest => [0x73#8] ++ wordBytes dest
  | .jne dest => [0x74#8] ++ wordBytes dest
  | .jge dest => [0x75#8] ++ wordBytes dest
  | .jg dest => [0x76#8] ++ wordBytes dest
  | .call dest => [0x80#8] ++ wordBytes dest
  | .ret => [0x90#8]
  | .pushq ra => [0xA0#8, regByte ra .noreg]
  | .popq ra => [0xB0#8, regByte ra .noreg]
  | .iotrap0 => [0xC0#8]
  | .iotrap1 => [0xC1#8]
  | .iotrap2 => [0xC2#8]
  | .iotrap3 => [0xC3#8]
  | .iotrap4 => [0xC4#8]
  | .iotrap5 => [0xC5#8]

/-- The ten bytes in memory order of an opcode-table word `w` of `nbits` bits, the rest zero. The table puts
byte 0 in the HIGH bits of a row's first word ("byte 0 in bits [w-1:w-8]"), and that word is one byte for the
classes of odd length (F1, F9) and two for those of even length (F2, F10) (DEDUCED, log 5). -/
def tableBytes (nbits w : Nat) : List Byte :=
  let v := w % 2 ^ nbits
  let byte (k : Nat) : Byte := BitVec.ofNat 8 (v >>> (8 * k))
  let tail : List Byte := [byte 2, byte 3, byte 4, byte 5, byte 6, byte 7, byte 8, byte 9]
  if (nbits / 8) % 2 = 0 then byte 1 :: byte 0 :: tail else byte 0 :: byte 1 :: tail

/-- The instruction the decoder reads from an opcode-table word, at the spec's default parameters. -/
def decodeTableWord (nbits w : Nat) : Option Instr :=
  match decode Machine.defaultParams (tableBytes nbits w) with
  | .ok (i, _) => some i
  | .error _ => none

end Sys2Proof
end

