-- ==== Sys2Proof/Machine/Operands.lean ====
section
/-! DEFINITION. Operand forms: register reads and writes (10_state.md R22, R23), the base-plus-displacement
address (42_moves.md R139, R140), the address after an instruction (valP), and the stage values (10_state.md R29). -/

namespace Sys2Proof.Machine

/-- The content of register id `r`; id 15 gives `noreg` (10_state.md R22). -/
def RegFile.get (f : RegFile) (noreg : Word) : RegId → Word
  | .rax => f.rax
  | .rcx => f.rcx
  | .rdx => f.rdx
  | .rbx => f.rbx
  | .rsp => f.rsp
  | .rbp => f.rbp
  | .rsi => f.rsi
  | .rdi => f.rdi
  | .r8 => f.r8
  | .r9 => f.r9
  | .r10 => f.r10
  | .r11 => f.r11
  | .r12 => f.r12
  | .r13 => f.r13
  | .r14 => f.r14
  | .noreg => noreg

/-- The register file with register id `r` replaced by `v`; a write to id 15 is discarded (10_state.md R23). -/
def RegFile.set (f : RegFile) (r : RegId) (v : Word) : RegFile :=
  match r with
  | .rax => { f with rax := v }
  | .rcx => { f with rcx := v }
  | .rdx => { f with rdx := v }
  | .rbx => { f with rbx := v }
  | .rsp => { f with rsp := v }
  | .rbp => { f with rbp := v }
  | .rsi => { f with rsi := v }
  | .rdi => { f with rdi := v }
  | .r8 => { f with r8 := v }
  | .r9 => { f with r9 := v }
  | .r10 => { f with r10 := v }
  | .r11 => { f with r11 := v }
  | .r12 => { f with r12 := v }
  | .r13 => { f with r13 := v }
  | .r14 => { f with r14 := v }
  | .noreg => f

/-- `x[r]` (10_state.md R22; NOREG_READ_VALUE for id 15, D6). -/
def State.reg (s : State) (r : RegId) : Word := s.regs.get s.params.noregReadValue r

/-- `x[r] <- v` (10_state.md R23). -/
def State.setReg (s : State) (r : RegId) (v : Word) : State := { s with regs := s.regs.set r v }

/-- `pc <- target` (00_scope.md R13). -/
def State.setPc (s : State) (target : Word) : State := { s with pc := target }

/-- `valP` of an instruction of class `c` at the pc: the address after its encoding (30_encoding.md R62, C2). -/
def State.valP (s : State) (c : Icode) : Word := s.pc + BitVec.ofNat 64 c.length

/-- The effective address `valC + x[rb]` modulo 2^64 of RMMOVQ and MRMOVQ (42_moves.md R139, R140). -/
def State.effectiveAddress (s : State) (disp : Word) (rb : RegId) : Word := disp + s.reg rb

/-- The slot `x[RSP] - 8` modulo 2^64 that CALL and PUSHQ write (44_control_transfer.md R178, 45_stack.md R190). -/
def State.pushAddress (s : State) : Word := s.reg .rsp - 8

/-- The values the core holds within a step: decode_execute sets the first four, memory_wb_pc the fifth. One that the
instruction's rule does not set is 0, or false (10_state.md R29, D30; log 18). -/
structure StageValues where
  condition : Bool := false
  valA : Word := 0
  valB : Word := 0
  valE : Word := 0
  valM : Word := 0
deriving DecidableEq, Repr

/-- decode_execute of an instruction whose rule sets no stage value: HALT, NOP, IOTRAP and INVALID (41_halt_nop.md R120,
R121; 46_iotrap_invalid.md R200, R207). -/
def idleExecute : StageValues := {}

end Sys2Proof.Machine
end

