-- ==== Sys2Proof/Machine/Ops.lean ====
section
/-! DEFINITION. The memory array, the load-store unit (20_memory.md) and raising a terminal status, which is all
that "taking an exception" is on this core (60_exceptions.md R240, R244). -/

namespace Sys2Proof.Machine

/-- What an address that the memory does not list reads as: memory is created zero-filled (10_state.md R32). -/
def Memory.unlisted : Byte := 0

/-- The byte `M[a]` (00_scope.md R13). -/
def Memory.read : Memory → Nat → Byte
  | [], _ => Memory.unlisted
  | (x, b) :: m, a => if a = x then b else Memory.read m a

/-- The memory without an entry for `a`. -/
def Memory.erase : Memory → Nat → Memory
  | [], _ => []
  | (x, b) :: m, a => if a = x then Memory.erase m a else (x, b) :: Memory.erase m a

/-- The memory with the entry `(a, b)`, addresses rising. -/
def Memory.insert : Memory → Nat → Byte → Memory
  | [], a, b => [(a, b)]
  | (x, c) :: m, a, b =>
    if a < x then (a, b) :: (x, c) :: m
    else if a = x then (a, b) :: m
    else (x, c) :: Memory.insert m a b

/-- `M[a] <- b`, keeping the canonical form: writing what an unlisted address reads as removes the entry. -/
def Memory.write (m : Memory) (a : Nat) (b : Byte) : Memory :=
  if b = Memory.unlisted then m.erase a else m.insert a b

/-- `M[a+k] <- bs[k]` for the addresses below `cap`; a byte at or beyond it does not exist and is dropped
(20_memory.md R41, R46). -/
def Memory.writeBytes (cap : Nat) : Memory → Nat → List Byte → Memory
  | m, _, [] => m
  | m, a, b :: bs => Memory.writeBytes cap (if a < cap then m.write a b else m) (a + 1) bs

/-- Addresses rise strictly from `lo` on and no entry holds the unlisted byte. -/
def Memory.wfFrom : Nat → Memory → Bool
  | _, [] => true
  | lo, (x, b) :: m => decide (lo ≤ x) && b != Memory.unlisted && Memory.wfFrom (x + 1) m

/-- The canonical form: addresses strictly rising, and no entry equal to what an unlisted address reads as. -/
def Memory.wf (m : Memory) : Bool := Memory.wfFrom 0 m

/-- Every listed address exists: it is below the capacity (20_memory.md R41). -/
def Memory.within (cap : Nat) (m : Memory) : Bool := m.all (fun c => decide (c.1 < cap))

/-- The 8-byte access at `addr` runs past the capacity (00_scope.md R15, straddling access); the sum is exact. -/
def straddles (p : Params) (addr : Word) : Bool :=
  decide (addr.toNat < p.memSize) && decide (p.memSize < addr.toNat + 8)

/-- The bounds check of the load-store unit (20_memory.md R46); `unsigned(addr) + 8` does not wrap. -/
def lsuFault (p : Params) (addr : Word) : Bool :=
  decide (p.memSize ≤ addr.toNat) || (p.straddleFaults && decide (p.memSize < addr.toNat + 8))

/-- Byte `k` of a read at `addr`: the memory's, or, at or beyond the capacity, a FREE VALUE (log 8), which only a
straddling read with STRADDLE_FAULTS false meets (20_memory.md R46, D7). -/
def State.readByte (s : State) (addr : Word) (k : Nat) : Byte :=
  if addr.toNat + k < s.params.memSize then s.mem.read (addr.toNat + k) else Config.freeByte (s.draws + k)

/-- A read request to the load-store unit (20_memory.md R45): `none` where it faults, else `MemRead(addr, 8)`
(R43) and the state after it, which differs only in the draws a straddling read has used. -/
def State.lsuRead (s : State) (addr : Word) : Option (Word × State) :=
  if lsuFault s.params addr then none
  else
    some (wordOfBytes (s.readByte addr),
      if straddles s.params addr then { s with draws := s.draws + 8 } else s)

/-- The read of memory_wb_pc at `addr`: `none` where it faults, else the stage values `v` with valM the word read, and
the state after it (42_moves.md R140; 44_control_transfer.md R179; 45_stack.md R191). -/
def State.readStage (s : State) (addr : Word) (v : StageValues) : Option (StageValues × State) :=
  match s.lsuRead addr with
  | none => none
  | some (valM, t) => some ({ v with valM := valM }, t)

/-- A write request to the load-store unit (20_memory.md R45): `none` where it faults, else the state after
`MemWrite(addr, 8, v)` (R44). -/
def State.lsuWrite (s : State) (addr v : Word) : Option State :=
  if lsuFault s.params addr then none
  else some { s with mem := s.mem.writeBytes s.params.memSize addr.toNat (wordBytes v) }

/-- `status <- st`. Raising a fault is this and nothing else: no state is saved, no mode changes and control goes
nowhere (60_exceptions.md R240, R244); nothing returns from it (R245). -/
def State.raise (s : State) (st : Status) : State := { s with status := st }

end Sys2Proof.Machine
end

