-- ==== Sys2Proof/Machine/Alu.lean ====
section
/-! DEFINITION. OPQ: addq, subq, andq, xorq (43_alu.md). -/

namespace Sys2Proof.Machine

/-- decode_execute of OPQ (R150): the operands and the ALU's result. -/
def opqExecute (op : AluOp) (ra rb : RegId) (s : State) : StageValues :=
  { valA := s.reg ra, valB := s.reg rb, valE := aluResult op (s.reg ra) (s.reg rb) }

/-- The datapath of OPQ (R150): decode_execute writes the flags (R155), memory_wb_pc the result. -/
def opqStep (op : AluOp) (ra rb : RegId) (s : State) : Host.Outcome State Fault Refusal :=
  let v := opqExecute op ra rb s
  .next (((s.setAluFlags op v.valA v.valB).setReg rb v.valE).setPc (s.valP .opq))

/-- `addq ra, rb` (R151). -/
def execAddq (ra rb : RegId) (s : State) : Host.Outcome State Fault Refusal := opqStep .add ra rb s

/-- `subq ra, rb` (R152): the destination minus the source. -/
def execSubq (ra rb : RegId) (s : State) : Host.Outcome State Fault Refusal := opqStep .sub ra rb s

/-- `andq ra, rb` (R153). -/
def execAndq (ra rb : RegId) (s : State) : Host.Outcome State Fault Refusal := opqStep .and ra rb s

/-- `xorq ra, rb` (R154). -/
def execXorq (ra rb : RegId) (s : State) : Host.Outcome State Fault Refusal := opqStep .xor ra rb s

end Sys2Proof.Machine
end

