-- ==== Sys2Proof/Machine/ControlTransfer.lean ====
section
/-! DEFINITION. Jumps, call and ret (44_control_transfer.md). Every target is absolute (R180). -/

namespace Sys2Proof.Machine

/-- decode_execute of the JUMP class (R170): only the condition, no flag mutation. -/
def jumpExecute (c : Cond) (s : State) : StageValues := { condition := s.condition c }

/-- The datapath of the JUMP class (R170). -/
def jumpStep (c : Cond) (dest : Word) (s : State) : Host.Outcome State Fault Refusal :=
  .next (s.setPc (if (jumpExecute c s).condition then dest else s.valP .jump))

/-- `jmp dest` (R171). -/
def execJmp (dest : Word) (s : State) : Host.Outcome State Fault Refusal := jumpStep .always dest s

/-- `jle dest` (R172). -/
def execJle (dest : Word) (s : State) : Host.Outcome State Fault Refusal := jumpStep .le dest s

/-- `jl dest` (R173). -/
def execJl (dest : Word) (s : State) : Host.Outcome State Fault Refusal := jumpStep .l dest s

/-- `je dest` (R174). -/
def execJe (dest : Word) (s : State) : Host.Outcome State Fault Refusal := jumpStep .e dest s

/-- `jne dest` (R175). -/
def execJne (dest : Word) (s : State) : Host.Outcome State Fault Refusal := jumpStep .ne dest s

/-- `jge dest` (R176). -/
def execJge (dest : Word) (s : State) : Host.Outcome State Fault Refusal := jumpStep .ge dest s

/-- `jg dest` (R177). -/
def execJg (dest : Word) (s : State) : Host.Outcome State Fault Refusal := jumpStep .g dest s

/-- decode_execute of CALL (R178): valE is the stack slot. -/
def callExecute (s : State) : StageValues := { valB := s.reg .rsp, valE := s.pushAddress }

/-- `call dest` (R178): on an LSU fault the jump still occurs, nothing is written and RSP is unchanged; else the
return address valP is pushed. -/
def execCall (dest : Word) (s : State) : Host.Outcome State Fault Refusal :=
  let v := callExecute s
  match s.lsuWrite v.valE (s.valP .call) with
  | none => .next ((s.raise .addressError).setPc dest)
  | some t => .next ((t.setReg .rsp v.valE).setPc dest)

/-- decode_execute of RET and of POPQ: valA is the address read, valE the incremented stack pointer (R179;
45_stack.md R191). -/
def popExecute (s : State) : StageValues :=
  { valA := s.reg .rsp, valB := s.reg .rsp, valE := s.reg .rsp + 8 }

/-- `ret` (R179): on an LSU fault pc, registers and memory are unchanged. -/
def execRet (s : State) : Host.Outcome State Fault Refusal :=
  let v := popExecute s
  match s.readStage v.valA v with
  | none => .next (s.raise .addressError)
  | some (w, t) => .next ((t.setPc w.valM).setReg .rsp w.valE)

end Sys2Proof.Machine
end

