-- ==== Sys2Proof/Machine/HaltNop.lean ====
section
/-! DEFINITION. HALT and NOP (41_halt_nop.md). -/

namespace Sys2Proof.Machine

/-- memory_wb_pc of a class whose rule only advances pc (R120, R121; 46_iotrap_invalid.md R200): it is handed the stage
values, as for every class (40_sequencer.md R100), and reads none. -/
def idleWriteback (c : Icode) (_v : StageValues) (s : State) : State := s.setPc (s.valP c)

/-- `halt` (R120): status HALTED, and pc still advances. -/
def execHalt (s : State) : Host.Outcome State Fault Refusal :=
  .next (idleWriteback .halt idleExecute (s.raise .halted))

/-- `nop` (R121): only pc advances. -/
def execNop (s : State) : Host.Outcome State Fault Refusal :=
  .next (idleWriteback .nop idleExecute s)

end Sys2Proof.Machine
end

