-- ==== Sys2Proof/Machine/IoTrap.lean ====
section
/-! DEFINITION. I/O traps: documented no-ops (46_iotrap_invalid.md R200; "currently a no-op"). -/

namespace Sys2Proof.Machine

/-- The semantics of every trap kind (R200): pc advances (D13), and nothing else changes. -/
def iotrapStep (s : State) : Host.Outcome State Fault Refusal :=
  .next (idleWriteback .iotrap idleExecute s)

/-- `iotrap 0`, the upstream CHAROUT kind (R201). -/
def execIotrap0 (s : State) : Host.Outcome State Fault Refusal := iotrapStep s

/-- `iotrap 1`, the upstream CHARIN kind (R202). -/
def execIotrap1 (s : State) : Host.Outcome State Fault Refusal := iotrapStep s

/-- `iotrap 2`, the upstream DECOUT kind (R203). -/
def execIotrap2 (s : State) : Host.Outcome State Fault Refusal := iotrapStep s

/-- `iotrap 3`, the upstream DECIN kind (R204). -/
def execIotrap3 (s : State) : Host.Outcome State Fault Refusal := iotrapStep s

/-- `iotrap 4`, the upstream STROUT kind (R205). -/
def execIotrap4 (s : State) : Host.Outcome State Fault Refusal := iotrapStep s

/-- `iotrap 5`, the upstream FLUSH kind (R206). -/
def execIotrap5 (s : State) : Host.Outcome State Fault Refusal := iotrapStep s

end Sys2Proof.Machine
end

