-- ==== Sys2Proof/Machine/Moves.lean ====
section
/-! DEFINITION. Moves: the CMOV class, irmovq, rmmovq, mrmovq (42_moves.md). -/

namespace Sys2Proof.Machine

/-- decode_execute of the CMOV class (R130): the move itself is deferred to writeback. -/
def cmovExecute (c : Cond) (ra : RegId) (s : State) : StageValues :=
  { condition := s.condition c, valA := s.reg ra, valE := s.reg ra }

/-- memory_wb_pc of the CMOV class (R130): pc advances, taken or not. -/
def cmovWriteback (rb : RegId) (v : StageValues) (s : State) : State :=
  (if v.condition then s.setReg rb v.valE else s).setPc (s.valP .cmov)

/-- The datapath of the CMOV class (R130). -/
def cmovStep (c : Cond) (ra rb : RegId) (s : State) : Host.Outcome State Fault Refusal :=
  .next (cmovWriteback rb (cmovExecute c ra s) s)

/-- `rrmovq ra, rb` (R131). -/
def execRrmovq (ra rb : RegId) (s : State) : Host.Outcome State Fault Refusal := cmovStep .always ra rb s

/-- `cmovle ra, rb` (R132). -/
def execCmovle (ra rb : RegId) (s : State) : Host.Outcome State Fault Refusal := cmovStep .le ra rb s

/-- `cmovl ra, rb` (R133). -/
def execCmovl (ra rb : RegId) (s : State) : Host.Outcome State Fault Refusal := cmovStep .l ra rb s

/-- `cmove ra, rb` (R134). -/
def execCmove (ra rb : RegId) (s : State) : Host.Outcome State Fault Refusal := cmovStep .e ra rb s

/-- `cmovne ra, rb` (R135). -/
def execCmovne (ra rb : RegId) (s : State) : Host.Outcome State Fault Refusal := cmovStep .ne ra rb s

/-- `cmovge ra, rb` (R136). -/
def execCmovge (ra rb : RegId) (s : State) : Host.Outcome State Fault Refusal := cmovStep .ge ra rb s

/-- `cmovg ra, rb` (R137). -/
def execCmovg (ra rb : RegId) (s : State) : Host.Outcome State Fault Refusal := cmovStep .g ra rb s

/-- decode_execute of IRMOVQ (R138). -/
def irmovqExecute (imm : Word) : StageValues := { valE := imm }

/-- `irmovq imm, rb` (R138). -/
def execIrmovq (imm : Word) (rb : RegId) (s : State) : Host.Outcome State Fault Refusal :=
  let v := irmovqExecute imm
  .next ((s.setReg rb v.valE).setPc (s.valP .irmovq))

/-- decode_execute of RMMOVQ (R139): valA is the value to store, valE the target address. -/
def rmmovqExecute (ra : RegId) (disp : Word) (rb : RegId) (s : State) : StageValues :=
  { valA := s.reg ra, valB := s.reg rb, valE := s.effectiveAddress disp rb }

/-- `rmmovq ra, disp(rb)` (R139): on an LSU fault pc, registers and memory are unchanged. -/
def execRmmovq (ra : RegId) (disp : Word) (rb : RegId) (s : State) : Host.Outcome State Fault Refusal :=
  let v := rmmovqExecute ra disp rb s
  match s.lsuWrite v.valE v.valA with
  | none => .next (s.raise .addressError)
  | some t => .next (t.setPc (s.valP .rmmovq))

/-- decode_execute of MRMOVQ (R140): valE is the source address. -/
def mrmovqExecute (disp : Word) (rb : RegId) (s : State) : StageValues :=
  { valB := s.reg rb, valE := s.effectiveAddress disp rb }

/-- `mrmovq disp(rb), ra` (R140): on an LSU fault pc, registers and memory are unchanged (D14). -/
def execMrmovq (disp : Word) (rb ra : RegId) (s : State) : Host.Outcome State Fault Refusal :=
  let v := mrmovqExecute disp rb s
  match s.readStage v.valE v with
  | none => .next (s.raise .addressError)
  | some (w, t) => .next ((t.setReg ra w.valM).setPc (s.valP .mrmovq))

end Sys2Proof.Machine
end

