-- ==== Sys2Proof/Machine/Stack.lean ====
section
/-! DEFINITION. pushq and popq (45_stack.md). -/

namespace Sys2Proof.Machine

/-- decode_execute of PUSHQ (R190): valA is read before the writeback, so `pushq %rsp` stores the old RSP. -/
def pushqExecute (ra : RegId) (s : State) : StageValues :=
  { valA := s.reg ra, valB := s.reg .rsp, valE := s.pushAddress }

/-- `pushq ra` (R190): on an LSU fault pc, registers and memory are unchanged (D14). -/
def execPushq (ra : RegId) (s : State) : Host.Outcome State Fault Refusal :=
  let v := pushqExecute ra s
  match s.lsuWrite v.valE v.valA with
  | none => .next (s.raise .addressError)
  | some t => .next ((t.setReg .rsp v.valE).setPc (s.valP .pushq))

/-- The two register writes of POPQ (R191): the popped value, then the incremented stack pointer, which wins
when `ra` is RSP; the other way round with POPQ_RSP_GETS_INCREMENT false (D15). -/
def popqWriteback (ra : RegId) (valM valE : Word) (s : State) : State :=
  if s.params.popqRspGetsIncrement then (s.setReg ra valM).setReg .rsp valE
  else (s.setReg .rsp valE).setReg ra valM

/-- `popq ra` (R191): on an LSU fault pc, registers and memory are unchanged (D14). -/
def execPopq (ra : RegId) (s : State) : Host.Outcome State Fault Refusal :=
  let v := popExecute s
  match s.readStage v.valA v with
  | none => .next (s.raise .addressError)
  | some (w, t) => .next ((popqWriteback ra w.valM w.valE t).setPc (s.valP .popq))

end Sys2Proof.Machine
end

