-- ==== Sys2Proof/Machine/Dispatch.lean ====
section
/-! DEFINITION. One arm per instruction, each a direct call of its meaning: decode_execute and then memory_wb_pc
of that instruction (40_sequencer.md R100, R101). -/

namespace Sys2Proof.Machine

def exec (i : Instr) (s : State) : Host.Outcome State Fault Refusal :=
  match i with
  | .halt => Sys2Proof.Machine.execHalt s
  | .nop => Sys2Proof.Machine.execNop s
  | .rrmovq ra rb => Sys2Proof.Machine.execRrmovq ra rb s
  | .cmovle ra rb => Sys2Proof.Machine.execCmovle ra rb s
  | .cmovl ra rb => Sys2Proof.Machine.execCmovl ra rb s
  | .cmove ra rb => Sys2Proof.Machine.execCmove ra rb s
  | .cmovne ra rb => Sys2Proof.Machine.execCmovne ra rb s
  | .cmovge ra rb => Sys2Proof.Machine.execCmovge ra rb s
  | .cmovg ra rb => Sys2Proof.Machine.execCmovg ra rb s
  | .irmovq imm rb => Sys2Proof.Machine.execIrmovq imm rb s
  | .rmmovq ra disp rb => Sys2Proof.Machine.execRmmovq ra disp rb s
  | .mrmovq disp rb ra => Sys2Proof.Machine.execMrmovq disp rb ra s
  | .addq ra rb => Sys2Proof.Machine.execAddq ra rb s
  | .subq ra rb => Sys2Proof.Machine.execSubq ra rb s
  | .andq ra rb => Sys2Proof.Machine.execAndq ra rb s
  | .xorq ra rb => Sys2Proof.Machine.execXorq ra rb s
  | .jmp dest => Sys2Proof.Machine.execJmp dest s
  | .jle dest => Sys2Proof.Machine.execJle dest s
  | .jl dest => Sys2Proof.Machine.execJl dest s
  | .je dest => Sys2Proof.Machine.execJe dest s
  | .jne dest => Sys2Proof.Machine.execJne dest s
  | .jge dest => Sys2Proof.Machine.execJge dest s
  | .jg dest => Sys2Proof.Machine.execJg dest s
  | .call dest => Sys2Proof.Machine.execCall dest s
  | .ret => Sys2Proof.Machine.execRet s
  | .pushq ra => Sys2Proof.Machine.execPushq ra s
  | .popq ra => Sys2Proof.Machine.execPopq ra s
  | .iotrap0 => Sys2Proof.Machine.execIotrap0 s
  | .iotrap1 => Sys2Proof.Machine.execIotrap1 s
  | .iotrap2 => Sys2Proof.Machine.execIotrap2 s
  | .iotrap3 => Sys2Proof.Machine.execIotrap3 s
  | .iotrap4 => Sys2Proof.Machine.execIotrap4 s
  | .iotrap5 => Sys2Proof.Machine.execIotrap5 s

end Sys2Proof.Machine
end

