-- ==== Sys2Proof/Machine/Fetch.lean ====
section
/-! DEFINITION. The decoder as a hardware block (30_encoding.md R67): the fetch-address check, the extraction and
validation of Decode.lean on the bytes at pc, and the two post-checks. -/

namespace Sys2Proof.Machine

/-- What a fetch gives: the record, and the status it writes, if any (30_encoding.md, the decoder's contract). -/
structure Fetched where
  record : Record
  status : Option Status
deriving DecidableEq, Repr

/-- The byte at `a` as the decoder sees it: 0 at or beyond the capacity, where nothing is read (R82, D11). -/
def fetchByte (p : Params) (m : Memory) (a : Nat) : Byte :=
  if a < p.memSize then m.read a else 0

/-- The ten bytes from `a` on, as many as the longest instruction has (R61). -/
def fetchWindow (p : Params) (m : Memory) (a : Nat) : List Byte :=
  [fetchByte p m a, fetchByte p m (a + 1), fetchByte p m (a + 2), fetchByte p m (a + 3), fetchByte p m (a + 4),
   fetchByte p m (a + 5), fetchByte p m (a + 6), fetchByte p m (a + 7), fetchByte p m (a + 8), fetchByte p m (a + 9)]

/-- The record of a fetch at `pc >= MEMSIZE` (R68, D10). -/
def outOfRangeRecord (pc : Word) : Record where
  icode := .invalid
  ifun := 0xF#4
  ra := .noreg
  rb := .noreg
  valC := 0
  valP := pc

/-- The record of an unrecognized class: INVALID with the function field forced to 0xF (R79, D9). -/
def unrecognizedRecord : Record where
  icode := .invalid
  ifun := 0xF#4
  ra := .noreg
  rb := .noreg
  valC := 0
  valP := 0

/-- The fetch bound of a class of length `len` at `pc` fails: `pc + valP > MEMSIZE` with `valP = pc + len`, computed
exactly, without wrap (R81, C2); `>=` with FETCH_BOUND_INCLUSIVE (D8, C3). -/
def exceedsFetchBound (p : Params) (pc : Word) (len : Nat) : Bool :=
  if p.fetchBoundInclusive then decide (p.memSize ≤ pc.toNat + (pc.toNat + len))
  else decide (p.memSize < pc.toNat + (pc.toNat + len))

/-- Post-check (a): a record that failed validation becomes INVALID with INVALID_INSTRUCTION (R80). -/
def checkValid (p : Params) (r : Record) : Fetched :=
  if r.valid p then ⟨r, none⟩ else ⟨{ r with icode := .invalid }, some .invalidInstruction⟩

/-- Post-check (b), which overrides (a): a record of class `c` that fails the fetch bound becomes INVALID with
ADDRESS_ERROR (R81). -/
def checkBound (p : Params) (pc : Word) (c : Icode) (f : Fetched) : Fetched :=
  if exceedsFetchBound p pc c.length then ⟨{ f.record with icode := .invalid }, some .addressError⟩ else f

/-- `fetch(pc, M)` (R67). It is a function of the parameters, the memory and the pc alone (R83). -/
def fetch (p : Params) (m : Memory) (pc : Word) : Fetched :=
  if p.memSize ≤ pc.toNat then ⟨outOfRangeRecord pc, some .addressError⟩
  else
    match rawRecord pc (fetchWindow p m pc.toNat) with
    | none => ⟨unrecognizedRecord, some .invalidInstruction⟩
    | some r => checkBound p pc r.icode (checkValid p r)

end Sys2Proof.Machine
end

