-- ==== Sys2Proof/Machine/Driver.lean ====
section
/-! DEFINITION. The driver loop: one architectural step, its post-step pc check, the loop and what its exit does
(40_sequencer.md R101, R103, R104; 46_iotrap_invalid.md R207). -/

namespace Sys2Proof.Machine

/-- The start of a step: the decoder's status write, the count and the last fetched record (R101, 10_state.md R30,
R31). -/
def State.beginStep (s : State) (f : Fetched) : State :=
  { s with
    status := f.status.getD s.status
    count := s.count + 1
    last := some f.record }

/-- What the executor does with a record that is no instruction: for INVALID it writes INVALID_INSTRUCTION only over
RUNNING (46_iotrap_invalid.md R207, D17); for a class with an invalid operation, which only a record built by hand
has, it writes INVALID_INSTRUCTION and nothing else (43_alu.md R158, D34, log 10). -/
def executeNonInstr (r : Record) (s : State) : State :=
  match r.icode, s.status with
  | .invalid, .running => s.raise .invalidInstruction
  | .invalid, _ => s
  | _, _ => s.raise .invalidInstruction

/-- decode_execute and memory_wb_pc on a decoded record (40_sequencer.md R100, R101). -/
def executeRecord (r : Record) (s : State) : Host.Outcome State Fault Refusal :=
  match r.instr? with
  | some i => exec i s
  | none => .next (executeNonInstr r s)

/-- The post-step pc check, unconditional (R103, D29). -/
def State.postCheck (s : State) : State :=
  if s.params.memSize ≤ s.pc.toNat then s.raise .addressError else s

/-- One architectural step from a state with status RUNNING (R101). -/
def archStep (s : State) : Host.Outcome State Fault Refusal :=
  let f := fetch s.params s.mem s.pc
  match executeRecord f.record (s.beginStep f) with
  | .next t => .next t.postCheck
  | .fault r => .fault r
  | .refused r => .refused r

/-- The corrected final pc after `r` was the last record fetched: its valP, plus 1 for CALL (R104, D18). -/
def correctedPc (r : Record) : Word :=
  r.valP + if r.icode = .call then 1 else 0

/-- What the loop does on a status: after ADDRESS_ERROR the reported pc is corrected and written into pc (R104,
D18); after the other statuses nothing is. -/
def State.loopExit (s : State) : State :=
  match s.status, s.last with
  | .addressError, some r => s.setPc (correctedPc r)
  | _, _ => s

/-- An architectural step, and the loop's exit where it was the last one: the exit's pc correction follows the last
step with nothing between them (R104; log 7). -/
def driverStep (s : State) : Host.Outcome State Fault Refusal :=
  match archStep s with
  | .next t => .next t.loopExit
  | .fault r => .fault r
  | .refused r => .refused r

/-- The driver loop (R104) under fuel: `some` final state, or `none` for a run not terminated after `fuel` steps,
which is no status of its own (R106, 93_implementation_defined.md I15). -/
def runLoop : Nat → State → Option State
  | fuel, s =>
    match s.status, fuel with
    | .running, 0 => none
    | .running, n + 1 =>
      match archStep s with
      | .next t => runLoop n t
      | .fault _ => none
      | .refused _ => none
    | _, _ => some s.loopExit

end Sys2Proof.Machine
end

