-- ==== Sys2Proof/Machine/Step.lean ====
section
/-! DEFINITION. The step of the machine, and how the host places an instruction where it fetches. -/

namespace Sys2Proof.Machine

/-- One step of a run: from RUNNING, an architectural step with the loop's exit where it is the last one
(40_sequencer.md R101, R104); a state whose status is terminal has no step (R28, R106). -/
def step (s : State) : Host.Outcome State Fault Refusal :=
  match s.status with
  | .running => driverStep s
  | .halted => .fault (.runEnded .halted)
  | .invalidInstruction => .fault (.runEnded .invalidInstruction)
  | .addressError => .fault (.runEnded .addressError)

/-- `s` with the instruction of an opcode-table word stored at its pc, in the ten bytes of the longest instruction;
this stands for the load of a program (20_memory.md R47; log 4, log 5). -/
def State.withFetchWord (s : State) (nbits w : Nat) : State :=
  { s with mem := s.mem.writeBytes s.params.memSize s.pc.toNat (tableBytes nbits w) }

end Sys2Proof.Machine
end

