-- ==== Sys2Proof/Machine/Loader.lean ====
section
/-! DEFINITION. What the external loader hands the core (00_scope.md R6, R9; 20_memory.md R47; 70_reset_and_hazards.md
R260): a memory image made of segments, and an entry point. The container format is out of scope (R5). -/

namespace Sys2Proof.Machine

/-- Memory zero-filled, then each piece (address, bytes) copied into it in order, so that a later copy wins where
two overlap (R47). Bytes at or beyond the capacity do not exist and are dropped (R41, log 16). -/
def loadPieces (cap : Nat) (pieces : List (Nat × List Byte)) : Memory :=
  pieces.foldl (fun m piece => m.writeBytes cap piece.1 piece.2) []

/-- Reset and boot (R260): the state a run starts from. -/
def State.boot (p : Params) (pieces : List (Nat × List Byte)) (entry : Word) : State :=
  State.resetWith p (loadPieces p.memSize pieces) entry

end Sys2Proof.Machine
end

