-- ==== Sys2Proof/Machine/Stages.lean ====
section
/-! DEFINITION. The stage values of a whole step, by the functions the meanings themselves run (10_state.md R29). They
carry nothing into the next step, so no field of State holds them. -/

namespace Sys2Proof.Machine

/-- The stage values after a read of memory_wb_pc; a read that faults leaves valM unset. -/
def State.afterRead (s : State) (addr : Word) (v : StageValues) : StageValues :=
  match s.readStage addr v with
  | none => v
  | some (w, _) => w

end Sys2Proof.Machine

namespace Sys2Proof

open Sys2Proof.Machine

/-- The stage values at the end of the step of `i` from `s` (10_state.md R29; the execute and writeback parts of the
instruction's rule). -/
def Instr.stageValues (i : Instr) (s : State) : StageValues :=
  match i with
  | .halt => idleExecute
  | .nop => idleExecute
  | .rrmovq ra _ => cmovExecute .always ra s
  | .cmovle ra _ => cmovExecute .le ra s
  | .cmovl ra _ => cmovExecute .l ra s
  | .cmove ra _ => cmovExecute .e ra s
  | .cmovne ra _ => cmovExecute .ne ra s
  | .cmovge ra _ => cmovExecute .ge ra s
  | .cmovg ra _ => cmovExecute .g ra s
  | .irmovq imm _ => irmovqExecute imm
  | .rmmovq ra disp rb => rmmovqExecute ra disp rb s
  | .mrmovq disp rb _ => s.afterRead (mrmovqExecute disp rb s).valE (mrmovqExecute disp rb s)
  | .addq ra rb => opqExecute .add ra rb s
  | .subq ra rb => opqExecute .sub ra rb s
  | .andq ra rb => opqExecute .and ra rb s
  | .xorq ra rb => opqExecute .xor ra rb s
  | .jmp _ => jumpExecute .always s
  | .jle _ => jumpExecute .le s
  | .jl _ => jumpExecute .l s
  | .je _ => jumpExecute .e s
  | .jne _ => jumpExecute .ne s
  | .jge _ => jumpExecute .ge s
  | .jg _ => jumpExecute .g s
  | .call _ => callExecute s
  | .ret => s.afterRead (popExecute s).valA (popExecute s)
  | .pushq ra => pushqExecute ra s
  | .popq _ => s.afterRead (popExecute s).valA (popExecute s)
  | .iotrap0 | .iotrap1 | .iotrap2 | .iotrap3 | .iotrap4 | .iotrap5 => idleExecute

/-- The stage values at the end of a step on the record `r`: a record that stands for no instruction, INVALID among
them, sets none (10_state.md R29; 46_iotrap_invalid.md R207; 43_alu.md R158). -/
def Record.stageValues (r : Record) (s : State) : StageValues :=
  match r.instr? with
  | some i => i.stageValues s
  | none => idleExecute

end Sys2Proof
end

