-- ==== Sys2Proof/Machine/Disassembler.lean ====
section
/-! DEFINITION. The disassembler: the renderer of a decoded record and the walk of a code region
(47_disassembler.md). Pure functions; they write no state (R210, R220). -/

namespace Sys2Proof.Machine

/-- Architectural register names; NOREG renders as nothing (R211, 10_state.md R21). -/
def regName : RegId → String
  | .rax => "%rax" | .rcx => "%rcx" | .rdx => "%rdx" | .rbx => "%rbx"
  | .rsp => "%rsp" | .rbp => "%rbp" | .rsi => "%rsi" | .rdi => "%rdi"
  | .r8 => "%r8" | .r9 => "%r9" | .r10 => "%r10" | .r11 => "%r11"
  | .r12 => "%r12" | .r13 => "%r13" | .r14 => "%r14" | .noreg => ""

/-- `0x` and the lower-case hexadecimal digits of the unsigned value, no leading zeros (R212, D20). -/
def hexNumber (v : Word) : String := "0x" ++ String.ofList (Nat.toDigits 16 v.toNat)

/-- The memory operand of RMMOVQ and MRMOVQ: displacement form unless the base is NOREG (R215). -/
def memOperand (disp : Word) (base : RegId) : String :=
  if base.isReg then hexNumber disp ++ "(" ++ regName base ++ ")" else hexNumber disp

/-- Two operands, separated by a comma and one space (R213, C9). -/
def twoOperands (a b : String) : String := a ++ ", " ++ b

/-- The mnemonic of a class and function code (R214; 30_encoding.md R64); `none` where R210 and R218 render
nothing. -/
def mnemonic? (c : Icode) (ifun : Nibble) : Option String :=
  match c, ifun.toNat with
  | .halt, 0 => some "halt"
  | .nop, 0 => some "nop"
  | .cmov, 0 => some "rrmovq"
  | .cmov, 1 => some "cmovle"
  | .cmov, 2 => some "cmovl"
  | .cmov, 3 => some "cmove"
  | .cmov, 4 => some "cmovne"
  | .cmov, 5 => some "cmovge"
  | .cmov, 6 => some "cmovg"
  | .irmovq, 0 => some "irmovq"
  | .rmmovq, 0 => some "rmmovq"
  | .mrmovq, 0 => some "mrmovq"
  | .opq, 0 => some "addq"
  | .opq, 1 => some "subq"
  | .opq, 2 => some "andq"
  | .opq, 3 => some "xorq"
  | .jump, 0 => some "jmp"
  | .jump, 1 => some "jle"
  | .jump, 2 => some "jl"
  | .jump, 3 => some "je"
  | .jump, 4 => some "jne"
  | .jump, 5 => some "jge"
  | .jump, 6 => some "jg"
  | .call, 0 => some "call"
  | .ret, 0 => some "ret"
  | .pushq, 0 => some "pushq"
  | .popq, 0 => some "popq"
  | .iotrap, 0 => some "iotrap"
  | .iotrap, 1 => some "iotrap"
  | .iotrap, 2 => some "iotrap"
  | .iotrap, 3 => some "iotrap"
  | .iotrap, 4 => some "iotrap"
  | .iotrap, 5 => some "iotrap"
  | _, _ => none

/-- The operand text of a record's class, `none` for a class without operands (R214); the trap kind in decimal. -/
def operandText? (r : Record) : Option String :=
  match r.icode with
  | .halt | .nop | .ret | .invalid => none
  | .cmov | .opq => some (twoOperands (regName r.ra) (regName r.rb))
  | .irmovq => some (twoOperands (hexNumber r.valC) (regName r.rb))
  | .rmmovq => some (twoOperands (regName r.ra) (memOperand r.valC r.rb))
  | .mrmovq => some (twoOperands (memOperand r.valC r.rb) (regName r.ra))
  | .jump | .call => some (hexNumber r.valC)
  | .pushq | .popq => some (regName r.ra)
  | .iotrap => some (String.ofList (Nat.toDigits 10 r.ifun.toNat))

/-- `render(decoded_instruction)` (R210, R213, R214): the mnemonic, and one space before the operands; empty for
INVALID and for a function code outside the class's range (R218). -/
def render (r : Record) : String :=
  match mnemonic? r.icode r.ifun with
  | none => ""
  | some m =>
    match operandText? r with
    | none => m
    | some ops => m ++ " " ++ ops

/-- One line of the code walk: address, raw encoded bytes in memory order, and text (R221). -/
structure Line where
  address : Word
  bytes : List Byte
  text : String
deriving DecidableEq, Repr

/-- The line of the instruction with record `r` at `a`: the bytes `M[a] .. M[valP - 1]` (R219). -/
def lineAt (m : Memory) (a : Word) (r : Record) : Line where
  address := a
  bytes := (List.range (r.valP.toNat - a.toNat)).map (fun k => m.read (a.toNat + k))
  text := render r

/-- The loop of the code walk (R219), at most `fuel` lines long: it fetches on a scratch status, stops at the limit or
at the first INVALID, and emits no line for the latter (R220, D21). -/
def walkCode (p : Params) (m : Memory) (limit : Nat) : Nat → Word → List Line
  | 0, _ => []
  | n + 1, a =>
    if a.toNat < limit then
      let r := (fetch p m a).record
      if r.icode = .invalid then [] else lineAt m a r :: walkCode p m limit n r.valP
    else []

/-- `disassemble_code(M, start, size)` (R219). Every instruction is at least one byte long, so `size` lines are as
many as the region can hold. -/
def disassembleCode (p : Params) (m : Memory) (start : Word) (size : Nat) : List Line :=
  walkCode p m (start.toNat + size) size start

/-- The type of a segment (00_scope.md R6). -/
inductive SegmentKind where
  | data
  | code
  | stack
  | heap
deriving DecidableEq, Repr

/-- A segment descriptor, which reaches the core only to say which region to disassemble (00_scope.md R6). The spec
gives its fields no widths (log 16). -/
structure Segment where
  kind : SegmentKind
  flags : Nat
  fileOffset : Nat
  virtualAddress : Word
  size : Nat
deriving DecidableEq, Repr

/-- The code walk of a CODE segment (R219); the walks of other segments are out of scope (00_scope.md R5). DESIGN CHOICE,
log 23: the region is chosen by the segment's kind alone. 20_memory.md R53 says that the region choice consumes the
permission flags, and no rule says how, so `flags` is carried and not read. -/
def disassembleSegment (p : Params) (m : Memory) (seg : Segment) : Option (List Line) :=
  match seg.kind with
  | .code => some (disassembleCode p m seg.virtualAddress seg.size)
  | .data | .stack | .heap => none

/-- The lines as text under the host's `LINE_FORMAT` (R221, P1). -/
def formatLines (lineFormat : Line → String) (lines : List Line) : List String := lines.map lineFormat

end Sys2Proof.Machine
end

