-- ==== Sys2Proof/Machine/Trace.lean ====
section
/-! DEFINITION. The traced variant of the driver loop (40_sequencer.md R105): a dump of the CPU state before every
step and the text of that step's instruction. It writes nothing into the core (D33). -/

namespace Sys2Proof.Machine

/-- A register as 16 hexadecimal digits (R105). -/
def hexDigits16 (v : Word) : String :=
  let digits := Nat.toDigits 16 v.toNat
  String.ofList (List.replicate (16 - digits.length) '0' ++ digits)

/-- The 15 registers in the order of their ids (10_state.md R21). -/
def RegFile.toList (f : RegFile) : List Word :=
  [f.rax, f.rcx, f.rdx, f.rbx, f.rsp, f.rbp, f.rsi, f.rdi, f.r8, f.r9, f.r10, f.r11, f.r12, f.r13, f.r14]

/-- The content of one dump and its per-step text (R105). The layout and the status keywords are the host's (P2), so
the status stays a value here. -/
structure TraceEntry where
  pc : Word
  zeroFlag : Bool
  signFlag : Bool
  overflowFlag : Bool
  status : Status
  registers : List String
  text : String
deriving DecidableEq, Repr

/-- The entry taken before a step from `s`, with the rendering of the record that step fetches (R105). -/
def traceEntry (s : State) : TraceEntry where
  pc := s.pc
  zeroFlag := s.zeroFlag
  signFlag := s.signFlag
  overflowFlag := s.overflowFlag
  status := s.status
  registers := s.regs.toList.map hexDigits16
  text := render (fetch s.params s.mem s.pc).record

/-- The traced loop: the entries in order, and what the silent loop answers (R105). -/
def tracedLoop : Nat → State → List TraceEntry × Option State
  | fuel, s =>
    match s.status, fuel with
    | .running, 0 => ([], none)
    | .running, n + 1 =>
      match archStep s with
      | .next t =>
        match tracedLoop n t with
        | (entries, final) => (traceEntry s :: entries, final)
      | .fault _ => ([traceEntry s], none)
      | .refused _ => ([traceEntry s], none)
    | _, _ => ([], some s.loopExit)

end Sys2Proof.Machine
end

