-- ==== Sys2Proof/Safety.lean ====
section
/-! DEFINITION. The terms the statements use: what counts as a good state, what a step may leave unchanged, and
what each instruction may write. -/

namespace Sys2Proof.Machine

/-- The record of the last fetch, if there is one, is a valid one (30_encoding.md R69 to R78). -/
def State.lastValid (s : State) : Bool :=
  match s.last with
  | none => true
  | some r => r.valid s.params

/-- The invariant of a run: memory is in canonical form and lists no address at or beyond MEMSIZE (20_memory.md
R41); while the status is RUNNING, pc is below MEMSIZE (40_sequencer.md R103) and the last fetched record is valid
(only an INVALID one ends the run, R101, R207); and nothing has been fetched exactly when nothing has been counted
(10_state.md R30, R31). -/
abbrev State.Inv (s : State) : Prop :=
  s.mem.wf = true ∧ s.mem.within s.params.memSize = true ∧
  (s.status = .running → s.pc.toNat < s.params.memSize) ∧
  (s.status = .running → s.lastValid = true) ∧
  (s.count = 0 ↔ s.last = none)

/-- The status is one that the source does not call an error: RUNNING or HALTED (60_exceptions.md R241). -/
def State.noError (s : State) : Bool :=
  match s.status with
  | .running | .halted => true
  | .invalidInstruction | .addressError => false

/-- Every register id but those of `ds` reads the same. -/
def SameRegsExcept (ds : List RegId) (s t : State) : Prop := ∀ r, r ∉ ds → t.reg r = s.reg r

/-- The three flags are unchanged. -/
def SameFlags (s t : State) : Prop :=
  t.zeroFlag = s.zeroFlag ∧ t.signFlag = s.signFlag ∧ t.overflowFlag = s.overflowFlag

/-- Every byte of memory reads the same. -/
def SameMemory (s t : State) : Prop := ∀ x, t.mem.read x = s.mem.read x

/-- Every byte of memory outside the eight from `a` on reads the same. -/
def SameMemoryOutside (a : Word) (s t : State) : Prop :=
  ∀ x, ¬(a.toNat ≤ x ∧ x < a.toNat + 8) → t.mem.read x = s.mem.read x

/-- The driver's items and the parameters are unchanged: no instruction writes them (10_state.md R30, R31). -/
def SameDriver (s t : State) : Prop :=
  t.params = s.params ∧ t.count = s.count ∧ t.last = s.last

/-- Every field but the pc, the registers of `ds` and the memory is unchanged. -/
def SameButRegsPcMemory (ds : List RegId) (s t : State) : Prop :=
  SameRegsExcept ds s t ∧ SameFlags s t ∧ SameDriver s t ∧ t.status = s.status ∧ t.draws = s.draws

end Sys2Proof.Machine

namespace Sys2Proof

open Sys2Proof.Machine

/-- The registers an instruction may write (43_alu.md R150; 42_moves.md R130, R138, R140; 44_control_transfer.md
R178, R179; 45_stack.md R190, R191). -/
def Instr.destinations : Instr → List RegId
  | .rrmovq _ rb | .cmovle _ rb | .cmovl _ rb | .cmove _ rb | .cmovne _ rb | .cmovge _ rb | .cmovg _ rb => [rb]
  | .irmovq _ rb => [rb]
  | .mrmovq _ _ ra => [ra]
  | .addq _ rb | .subq _ rb | .andq _ rb | .xorq _ rb => [rb]
  | .call _ | .ret | .pushq _ => [.rsp]
  | .popq ra => [ra, .rsp]
  | .rmmovq _ _ _ => []
  | .jmp _ | .jle _ | .jl _ | .je _ | .jne _ | .jge _ | .jg _ => []
  | .halt | .nop | .iotrap0 | .iotrap1 | .iotrap2 | .iotrap3 | .iotrap4 | .iotrap5 => []

/-- The instruction writes the flags: OPQ only (10_state.md R26). -/
def Instr.isOpq : Instr → Bool
  | .addq _ _ | .subq _ _ | .andq _ _ | .xorq _ _ => true
  | .rrmovq _ _ | .cmovle _ _ | .cmovl _ _ | .cmove _ _ | .cmovne _ _ | .cmovge _ _ | .cmovg _ _
  | .irmovq _ _ | .rmmovq _ _ _ | .mrmovq _ _ _
  | .jmp _ | .jle _ | .jl _ | .je _ | .jne _ | .jge _ | .jg _ | .call _ | .ret | .pushq _ | .popq _
  | .halt | .nop | .iotrap0 | .iotrap1 | .iotrap2 | .iotrap3 | .iotrap4 | .iotrap5 => false

/-- The address an instruction stores eight bytes to, for those that store (20_memory.md R45). -/
def Instr.storeAddress? (i : Instr) (s : State) : Option Word :=
  match i with
  | .rmmovq _ disp rb => some (s.effectiveAddress disp rb)
  | .call _ | .pushq _ => some s.pushAddress
  | .mrmovq _ _ _ | .ret | .popq _ => none
  | .rrmovq _ _ | .cmovle _ _ | .cmovl _ _ | .cmove _ _ | .cmovne _ _ | .cmovge _ _ | .cmovg _ _ | .irmovq _ _
  | .addq _ _ | .subq _ _ | .andq _ _ | .xorq _ _
  | .jmp _ | .jle _ | .jl _ | .je _ | .jne _ | .jge _ | .jg _
  | .halt | .nop | .iotrap0 | .iotrap1 | .iotrap2 | .iotrap3 | .iotrap4 | .iotrap5 => none

/-- The address an instruction loads eight bytes from, for those that load (20_memory.md R45). -/
def Instr.loadAddress? (i : Instr) (s : State) : Option Word :=
  match i with
  | .mrmovq disp rb _ => some (s.effectiveAddress disp rb)
  | .ret | .popq _ => some (s.reg .rsp)
  | .rmmovq _ _ _ | .call _ | .pushq _ => none
  | .rrmovq _ _ | .cmovle _ _ | .cmovl _ _ | .cmove _ _ | .cmovne _ _ | .cmovge _ _ | .cmovg _ _ | .irmovq _ _
  | .addq _ _ | .subq _ _ | .andq _ _ | .xorq _ _
  | .jmp _ | .jle _ | .jl _ | .je _ | .jne _ | .jge _ | .jg _
  | .halt | .nop | .iotrap0 | .iotrap1 | .iotrap2 | .iotrap3 | .iotrap4 | .iotrap5 => none

end Sys2Proof

namespace Sys2Proof.Machine

/-- Two states that agree on everything but bytes of memory at or beyond MEMSIZE, which do not exist (20_memory.md
R41). -/
structure AgreeBelowCapacity (s t : State) : Prop where
  rest : { t with mem := s.mem } = s
  bytes : ∀ x, x < s.params.memSize → t.mem.read x = s.mem.read x

end Sys2Proof.Machine
end

