-- ==== Sys2Proof/Certificates/Slice0/Obligations.lean ====
section
/-! DEFINITION. The statements about the model, one `def Obligations.<Name> : Prop` each; OBLIGATIONS.json lists
them. The parameters of 00_scope.md R10 are fields of the state, so a statement for every state is one for every
value of every parameter. -/

open Sys2Proof Sys2Proof.Machine

/-! ## Encoding and decoding -/

/-- Decoding the encoding of a well-formed instruction gives it back, and leaves the bytes after it
(30_encoding.md R60 to R78). -/
def Obligations.DecodeOfEncodeGivesTheInstruction : Prop :=
  ∀ (p : Params) (i : Instr) (rest : List Byte),
    i.wellFormed p = true → decode p (encode i ++ rest) = .ok (i, rest)

/-- Whatever bytes the decoder accepts are the encoding of the well-formed instruction it answers: no two byte
sequences stand for one instruction (30_encoding.md R84: there are no reserved or hint encodings). -/
def Obligations.EncodeOfDecodedBytesGivesTheBytes : Prop :=
  ∀ (p : Params) (bs rest : List Byte) (i : Instr),
    decode p bs = .ok (i, rest) → i.wellFormed p = true ∧ encode i ++ rest = bs

/-- A few byte sequences written out in the spec decode as it says (95_test_vectors.md 2.1). -/
def Obligations.SpecWordsDecodeAsWritten : Prop :=
  decode defaultParams [0x30, 0xF2, 5, 0, 0, 0, 0, 0, 0, 0] = .ok (.irmovq 5 .rdx, []) ∧
  decode defaultParams [0x26, 0x0E] = .ok (.cmovg .rax .r14, []) ∧
  decode defaultParams [0x61, 0x32, 0x00] = .ok (.subq .rbx .rdx, [0x00]) ∧
  decode defaultParams [0x80, 0, 2, 0, 0, 0, 0, 0, 0] = .ok (.call 0x200, []) ∧
  decode defaultParams [0xB0, 0xFF] = .error .badRegister ∧
  decode defaultParams [0xC6] = .error .badFunctionCode ∧
  decode defaultParams [0xE5] = .error .unrecognizedClass

/-- The high nibble of byte 0 alone fixes the class, and so the format, and the length, which is 1, 2, 9 or 10 bytes
(30_encoding.md R86, R60). -/
def Obligations.FirstNibbleFixesTheLength : Prop :=
  ∀ (p : Params) (bs bs' rest rest' : List Byte) (i i' : Instr),
    decode p bs = .ok (i, rest) → decode p bs' = .ok (i', rest') →
    hiNibble (byteAt bs 0) = hiNibble (byteAt bs' 0) →
    i.icode = i'.icode ∧ ∃ n, n ∈ [1, 2, 9, 10] ∧ bs.length = n + rest.length ∧ bs'.length = n + rest'.length

/-! ## Fetch -/

/-- The bytes at a place are an illegal encoding, by the list of 30_encoding.md R84 written out on the nibbles of
bytes 0 and 1 (R77's parameters for PUSHQ and POPQ with `ra = 15`). -/
def illegalBytes (p : Params) (b0 b1 : Byte) : Bool :=
  let c := (hiNibble b0).toNat
  let f := (loNibble b0).toNat
  let a := (hiNibble b1).toNat
  let b := (loNibble b1).toNat
  decide (13 ≤ c) ||
  (decide (c ∈ [0, 1, 3, 4, 5, 8, 9, 10, 11]) && decide (f ≠ 0)) ||
  (decide (c ∈ [2, 7]) && decide (7 ≤ f)) ||
  (decide (c = 6) && decide (4 ≤ f)) ||
  (decide (c = 12) && decide (6 ≤ f)) ||
  (decide (c = 2) && (decide (a = 15) || decide (b = 15))) ||
  (decide (c = 3) && (decide (a ≠ 15) || decide (b = 15))) ||
  (decide (c = 10) && (decide (b ≠ 15) || (decide (a = 15) && !p.pushqRaAllowsNoreg))) ||
  (decide (c = 11) && (decide (b ≠ 15) || (decide (a = 15) && !p.popqRaAllowsNoreg)))

/-- The length column of 30_encoding.md R63, by class code. -/
def lengthOfClass (c : Nat) : Nat := [1, 1, 2, 10, 10, 10, 2, 9, 9, 1, 2, 2, 1].getD c 0

/-- The status a fetch below the capacity writes: ADDRESS_ERROR when a recognized class fails the bound
`pc + valP > MEMSIZE`, whether or not the encoding is legal; else INVALID_INSTRUCTION exactly when it is illegal;
and the record is INVALID exactly when a status is written (30_encoding.md R80, R81, R84). Under
FETCH_BOUND_INCLUSIVE the bound is `>=` (the spec's decision D8, log 11). -/
def Obligations.FetchStatusIsBoundThenLegality : Prop :=
  ∀ (p : Params) (m : Memory) (pc : Word), pc.toNat < p.memSize →
    let b0 := m.read pc.toNat
    let b1 := fetchByte p m (pc.toNat + 1)
    let c := (hiNibble b0).toNat
    let sum := pc.toNat + (pc.toNat + lengthOfClass c)
    (fetch p m pc).status =
      (if c < 13 ∧ (p.memSize < sum ∨ (p.fetchBoundInclusive = true ∧ sum = p.memSize)) then some .addressError
       else if illegalBytes p b0 b1 = true then some .invalidInstruction
       else none) ∧
    ((fetch p m pc).record.icode = .invalid ↔ (fetch p m pc).status ≠ none)

/-- A fetch at `pc >= MEMSIZE` (30_encoding.md R68; the spec's decision D10, log 12). -/
def Obligations.FetchBeyondCapacityIsAddressError : Prop :=
  ∀ (p : Params) (m : Memory) (pc : Word), p.memSize ≤ pc.toNat →
    fetch p m pc = ⟨⟨.invalid, 0xF#4, .noreg, .noreg, 0, pc⟩, some .addressError⟩

/-- A class nibble of 0xD, 0xE or 0xF gives INVALID with the function field forced to 0xF and status
INVALID_INSTRUCTION, and no bound check (30_encoding.md R79; the rest of the record is the spec's decision D9,
log 12). -/
def Obligations.UnrecognizedClassIsInvalid : Prop :=
  ∀ (p : Params) (m : Memory) (pc : Word), pc.toNat < p.memSize →
    13 ≤ (hiNibble (m.read pc.toNat)).toNat →
    fetch p m pc = ⟨⟨.invalid, 0xF#4, .noreg, .noreg, 0, 0⟩, some .invalidInstruction⟩

/-! ## The step and the run -/

/-- When the bytes at pc are the encoding of a well-formed instruction that passes the fetch bound, the step is that
instruction's exec on the state with the count advanced and the record kept, then the post-step pc check
(40_sequencer.md R101, R103). Then comes the loop's exit, whose pc correction (R104) is a change of pc by the spec's
decision D18 (log 12); that the step itself makes it is the model's choice (log 7). -/
def Obligations.StepRunsTheInstructionAtPc : Prop :=
  ∀ (s : State) (i : Instr),
    s.status = .running → i.wellFormed s.params = true → s.pc.toNat < s.params.memSize →
    (∀ k, k < (encode i).length → s.mem.read (s.pc.toNat + k) = (encode i).getD k 0) →
    exceedsFetchBound s.params s.pc (encode i).length = false →
    ∃ r : Record, r.icode = i.icode ∧ r.instr? = some i ∧ r.valP = s.pc + BitVec.ofNat 64 (encode i).length ∧
      step s =
        match exec i { s with count := s.count + 1, last := some r } with
        | .next t => .next t.postCheck.loopExit
        | .fault e => .fault e
        | .refused e => .refused e

/-- A step whose fetch gives an INVALID record changes only the status, the driver's items and, after
ADDRESS_ERROR, the corrected pc: no register, flag or memory byte (46_iotrap_invalid.md R207, 60_exceptions.md
R242; that an ADDRESS_ERROR stands is the spec's decision D17, log 12, and the pc correction D18, log 7). -/
def Obligations.InvalidRecordChangesOnlyTheStatus : Prop :=
  ∀ s : State, s.status = .running → (fetch s.params s.mem s.pc).record.icode = .invalid →
    ∃ st, (fetch s.params s.mem s.pc).status = some st ∧ st ≠ .running ∧ st ≠ .halted ∧
      step s = .next
        { s with
          status := st
          count := s.count + 1
          last := some (fetch s.params s.mem s.pc).record
          pc := if st = .addressError then (fetch s.params s.mem s.pc).record.valP else s.pc }

/-- From RUNNING every step answers a next state: every fault of the core is a status and none stops the model; from
a terminal status there is no step (60_exceptions.md R240; that the model says so by a fault is log 6). -/
def Obligations.EveryRunningStateSteps : Prop :=
  ∀ s : State,
    (s.status = .running → ∃ t, step s = .next t) ∧
    (s.status ≠ .running → step s = .fault (.runEnded s.status))

/-- After an architectural step, a pc at or beyond MEMSIZE has forced ADDRESS_ERROR, whatever the step did before
(40_sequencer.md R103; that it is unconditional is the spec's decision D29, log 12). -/
def Obligations.PcBeyondCapacityForcesAddressError : Prop :=
  ∀ s t : State, archStep s = .next t → s.params.memSize ≤ t.pc.toNat → t.status = .addressError

/-- A step that ends the run with ADDRESS_ERROR leaves pc at the fetched record's valP, plus 1 when that record is a
CALL; a step that ends otherwise leaves the pc that the architectural step left (40_sequencer.md R104; that the
correction is written into pc is the spec's decision D18, log 7). -/
def Obligations.FinalPcIsCorrectedAfterAddressError : Prop :=
  ∀ s t : State, step s = .next t →
    let r := (fetch s.params s.mem s.pc).record
    (t.status = .addressError → t.pc = r.valP + (if r.icode = .call then 1 else 0)) ∧
    (t.status ≠ .addressError → archStep s = .next t)

/-- Every step counts one and keeps the record it fetched (10_state.md R30, R31; that the count is unbounded is the
spec's decision D26, log 12). No step changes a parameter: the parameters (00_scope.md R10) are fields of the state by
the model's choice (log 1). -/
def Obligations.EveryStepCountsAndKeepsItsRecord : Prop :=
  ∀ s t : State, step s = .next t →
    t.count = s.count + 1 ∧ t.last = some (fetch s.params s.mem s.pc).record ∧ t.params = s.params

/-- An instruction never sets RUNNING: it leaves the status, or HALT sets HALTED, or an access that fails the LSU
check sets ADDRESS_ERROR (10_state.md R27, R28). -/
def Obligations.InstructionsSetOnlyTheirOwnStatus : Prop :=
  ∀ (i : Instr) (s t : State), exec i s = .next t →
    t.status =
      (if i = .halt then .halted
       else
        match i.storeAddress? s, i.loadAddress? s with
        | some a, _ => if lsuFault s.params a then .addressError else s.status
        | none, some a => if lsuFault s.params a then .addressError else s.status
        | none, none => s.status)

/-- The status after an architectural step of an instruction follows the priority of 60_exceptions.md R243: a pc at
or beyond MEMSIZE, then a failed data access, then HALT; else the run goes on. That the pc check replaces the others is
the spec's decision D29, log 12. -/
def Obligations.StepStatusFollowsThePriority : Prop :=
  ∀ (s t : State) (i : Instr), s.status = .running →
    (fetch s.params s.mem s.pc).status = none → (fetch s.params s.mem s.pc).record.instr? = some i →
    archStep s = .next t →
    t.status =
      (if s.params.memSize ≤ t.pc.toNat then .addressError
       else if (i.storeAddress? s).any (lsuFault s.params) || (i.loadAddress? s).any (lsuFault s.params) then
        .addressError
       else if i = .halt then .halted
       else .running)

/-- The invariant of `State.Inv` is kept by every step, from every state that has it. -/
def Obligations.EveryStepKeepsTheInvariant : Prop :=
  ∀ s t : State, s.Inv → step s = .next t → t.Inv

/-- The reset state has the invariant. Its entry point 0 is the model's choice (log 3) and its MEMSIZE the default
(log 2). -/
def Obligations.ResetMeetsTheInvariant : Prop := State.reset.Inv

/-- So has every boot with an entry point below MEMSIZE, whatever pieces the loader copies: a piece that runs past
MEMSIZE is included, and the bytes it has there are dropped by the model's choice (log 16). -/
def Obligations.BootMeetsTheInvariant : Prop :=
  ∀ (p : Params) (pieces : List (Nat × List Byte)) (entry : Word),
    entry.toNat < p.memSize → (State.boot p pieces entry).Inv

/-- The reset values (10_state.md R32), for every entry point and every parameter; NOREG has no storage. That the count
starts at 0 is the spec's decision D26, log 12. -/
def Obligations.ResetValuesAreTheSpecs : Prop :=
  ∀ (p : Params) (entry : Word),
    let s := State.boot p [] entry
    (∀ r, r ≠ .noreg → s.reg r = 0) ∧ s.pc = entry ∧
    s.zeroFlag = false ∧ s.signFlag = false ∧ s.overflowFlag = false ∧
    s.status = .running ∧ s.count = 0 ∧ s.last = none ∧ ∀ a, s.mem.read a = 0

/-- The memory a run starts from: where the last piece the loader copied covers an existing byte, it wins; elsewhere the
earlier pieces stand; with no pieces every byte is 0 (20_memory.md R47). -/
def Obligations.LaterPieceWinsInTheImage : Prop :=
  ∀ (p : Params) (entry : Word) (pieces : List (Nat × List Byte)) (a : Nat) (bs : List Byte) (x : Nat),
    (State.boot p [] entry).mem.read x = 0 ∧
    (a ≤ x → x < a + bs.length → x < p.memSize →
      (State.boot p (pieces ++ [(a, bs)]) entry).mem.read x = bs.getD (x - a) 0) ∧
    (¬(a ≤ x ∧ x < a + bs.length) →
      (State.boot p (pieces ++ [(a, bs)]) entry).mem.read x = (State.boot p pieces entry).mem.read x)

/-- The driver loop and the machine's steps agree: from RUNNING, the loop with fuel `n` ends in `t` exactly when some
number of steps up to `n` leads to `t` and `t` has a terminal status (40_sequencer.md R104, R106). That the pc correction
is in pc is the spec's decision D18 (log 12), and that the last step makes it the model's choice (log 7). -/
def Obligations.DriverLoopIsIteratedStep : Prop :=
  ∀ (n : Nat) (s t : State), s.status = .running →
    (runLoop n s = some t ↔ ∃ k, k ≤ n ∧ Host.Core.run core k s = .next t ∧ t.status ≠ .running)

/-- The traced loop ends in the state the silent loop ends in, with one entry per counted instruction
(40_sequencer.md R105; that tracing changes nothing is the spec's decision D33, log 12). -/
def Obligations.TracedLoopEndsAsTheSilentLoop : Prop :=
  ∀ (n : Nat) (s : State),
    (tracedLoop n s).2 = runLoop n s ∧
    ∀ t, runLoop n s = some t → t.count = s.count + (tracedLoop n s).1.length

/-- No byte at or beyond MEMSIZE is read or written: two states that agree on everything else step alike, and still
agree (20_memory.md R41). -/
def Obligations.NoByteBeyondCapacityMatters : Prop :=
  ∀ s s' t : State, AgreeBelowCapacity s s' → step s = .next t →
    (∀ x, s.params.memSize ≤ x → t.mem.read x = s.mem.read x) ∧
    ∃ t', step s' = .next t' ∧ AgreeBelowCapacity t t'

/-! ## Each instruction: its result and its frame -/

/-- `halt` (41_halt_nop.md R120): status HALTED, pc past the byte, nothing else. -/
def Obligations.HaltStopsAndAdvancesPc : Prop :=
  encode .halt = [0x00] ∧
  ∀ s : State, exec .halt s = .next { s with status := .halted, pc := s.pc + 1 }

/-- The step of a `halt` that passes the fetch bound: pc is past its byte and the status HALTED, except where the byte at
0 is the whole memory, whose pc check turns it into ADDRESS_ERROR (41_halt_nop.md R120, the corner case it derives; the
pc check is the spec's decision D29, log 12). -/
def Obligations.HaltEndsTheRunAfterItsByte : Prop :=
  ∀ s : State, s.status = .running → s.mem.read s.pc.toNat = 0x00#8 → s.pc.toNat < s.params.memSize →
    exceedsFetchBound s.params s.pc 1 = false →
    ∃ t, step s = .next t ∧ t.pc = s.pc + 1 ∧
      t.status = (if s.pc = 0 ∧ s.params.memSize = 1 then .addressError else .halted) ∧
      SameRegsExcept [] s t ∧ SameFlags s t ∧ SameMemory s t ∧ t.count = s.count + 1

/-- `nop` changes nothing but pc; a NOP class byte with another function code is fetched as INVALID with
INVALID_INSTRUCTION, where the fetch bound passes under both readings (41_halt_nop.md R121). -/
def Obligations.NopOnlyAdvancesPc : Prop :=
  encode .nop = [0x10] ∧
  (∀ s : State, exec .nop s = .next { s with pc := s.pc + 1 }) ∧
  ∀ (p : Params) (m : Memory) (pc : Word) (f : Nibble),
    f ≠ 0 → 2 * pc.toNat + 1 < p.memSize → m.read pc.toNat = byteOfNibbles 0x1#4 f →
    (fetch p m pc).record.icode = .invalid ∧ (fetch p m pc).status = some .invalidInstruction

/-- The six I/O traps and their bytes (46_iotrap_invalid.md R201 to R206). -/
def trapRows : List (Instr × Byte) :=
  [(.iotrap0, 0xC0), (.iotrap1, 0xC1), (.iotrap2, 0xC2), (.iotrap3, 0xC3), (.iotrap4, 0xC4), (.iotrap5, 0xC5)]

/-- The six I/O traps change nothing but pc (46_iotrap_invalid.md R200 to R206; that pc advances is the spec's
decision D13, log 12). -/
def Obligations.TrapsOnlyAdvancePc : Prop :=
  ∀ (i : Instr) (b : Byte) (s : State),
    (i, b) ∈ trapRows →
    encode i = [b] ∧ exec i s = .next { s with pc := s.pc + 1 }

/-- The seven conditional moves, their first bytes and their conditions on the flags (42_moves.md R131 to R137). -/
def moveRows (ra rb : RegId) (z s o : Bool) : List (Instr × Byte × Bool) :=
  [(.rrmovq ra rb, 0x20, true),
   (.cmovle ra rb, 0x21, z || (s && !o) || (!s && o)),
   (.cmovl ra rb, 0x22, (s && !o) || (!s && o)),
   (.cmove ra rb, 0x23, z),
   (.cmovne ra rb, 0x24, !z),
   (.cmovge ra rb, 0x25, s == o),
   (.cmovg ra rb, 0x26, !z && (s == o))]

/-- The CMOV class (42_moves.md R130 to R137): the destination takes the pre-step source exactly when the condition
holds of the flags, pc advances by 2 either way, and nothing else changes. That a write to id 15 writes nothing is
RegisterWritesAreReadBack; the decoder rejects it here. -/
def Obligations.ConditionalMovesMoveWhenTheConditionHolds : Prop :=
  ∀ (ra rb : RegId) (s : State) (i : Instr) (b : Byte) (c : Bool),
    (i, b, c) ∈ moveRows ra rb s.zeroFlag s.signFlag s.overflowFlag →
    encode i = [b, regByte ra rb] ∧
    ∃ t, exec i s = .next t ∧ t.pc = s.pc + 2 ∧
      (∀ r, r ≠ .noreg → t.reg r = if c = true ∧ r = rb then s.reg ra else s.reg r) ∧
      SameFlags s t ∧ SameMemory s t ∧ SameDriver s t ∧ t.status = s.status ∧ t.draws = s.draws

/-- `irmovq` (42_moves.md R138): the destination takes the 64-bit immediate whole, pc advances by 10. -/
def Obligations.ImmediateMoveLoadsTheWholeWord : Prop :=
  ∀ (imm : Word) (rb : RegId) (s : State),
    encode (.irmovq imm rb) = [0x30, regByte .noreg rb] ++ wordBytes imm ∧
    ∃ t, exec (.irmovq imm rb) s = .next t ∧ t.pc = s.pc + 10 ∧
      (∀ r, r ≠ .noreg → t.reg r = if r = rb then imm else s.reg r) ∧
      SameFlags s t ∧ SameMemory s t ∧ SameDriver s t ∧ t.status = s.status ∧ t.draws = s.draws

/-- `rmmovq` (42_moves.md R139), both ways: where the LSU check (20_memory.md R46; its straddling term is the spec's
decision D7, log 12) fails at valC + x[rb], only the status changes, to ADDRESS_ERROR; else the eight bytes there, as
far as they exist, are the source's, every other byte, register and flag is as before, and pc advances by 10. -/
def Obligations.StoreWritesEightBytesOrFaults : Prop :=
  ∀ (ra : RegId) (disp : Word) (rb : RegId) (s : State),
    let a := disp + s.reg rb
    encode (.rmmovq ra disp rb) = [0x40, regByte ra rb] ++ wordBytes disp ∧
    (lsuFault s.params a = true → exec (.rmmovq ra disp rb) s = .next { s with status := .addressError }) ∧
    (lsuFault s.params a = false →
      ∃ t, exec (.rmmovq ra disp rb) s = .next t ∧ t.pc = s.pc + 10 ∧
        (∀ k, k < 8 → a.toNat + k < s.params.memSize → t.mem.read (a.toNat + k) = wordByte (s.reg ra) k) ∧
        SameMemoryOutside a s t ∧ SameButRegsPcMemory [] s t)

/-- `mrmovq` (42_moves.md R140), both ways: where the LSU check fails only the status changes (that pc stays is the
spec's decision D14, log 12); else the destination takes a word whose bytes are the memory's at valC + x[rb], as far
as they exist, pc advances by 10 and memory is unchanged. Bytes that do not exist are free (log 8), which only
STRADDLE_FAULTS false allows. -/
def Obligations.LoadReadsEightBytesOrFaults : Prop :=
  ∀ (disp : Word) (rb ra : RegId) (s : State),
    let a := disp + s.reg rb
    encode (.mrmovq disp rb ra) = [0x50, regByte ra rb] ++ wordBytes disp ∧
    (lsuFault s.params a = true → exec (.mrmovq disp rb ra) s = .next { s with status := .addressError }) ∧
    (lsuFault s.params a = false →
      ∃ t v, exec (.mrmovq disp rb ra) s = .next t ∧ t.pc = s.pc + 10 ∧
        (∀ k, k < 8 → a.toNat + k < s.params.memSize → wordByte v k = s.mem.read (a.toNat + k)) ∧
        (∀ r, t.reg r = if r = ra ∧ ra ≠ .noreg then v else s.reg r) ∧
        SameFlags s t ∧ SameMemory s t ∧ SameDriver s t ∧ t.status = s.status ∧
        (a.toNat + 8 ≤ s.params.memSize → t.draws = s.draws))

/-- `addq` and `subq` on operand values `va` (of `ra`) and `vb` (of `rb`): the first byte, the result and the overflow
flag (43_alu.md R151, R152, and the ADD and SUB lines of R155). -/
def addSubRows (ra rb : RegId) (va vb : Word) : List (Instr × Byte × Word × Bool) :=
  [(.addq ra rb, 0x60, vb + va, (va.msb == vb.msb) && ((vb + va).msb != vb.msb)),
   (.subq ra rb, 0x61, vb - va, (va.msb != vb.msb) && ((vb - va).msb != vb.msb))]

/-- `addq` and `subq` (43_alu.md R151, R152): the destination takes x[rb] + x[ra] or x[rb] - x[ra] modulo 2^64; S, Z
and O by the lines of R155; pc advances by 2. With `rb` = 15 the flags are written and no register is; what reads and
writes of id 15 do is RegisterWritesAreReadBack. -/
def Obligations.AddAndSubtractResultsAndFlags : Prop :=
  ∀ (ra rb : RegId) (s : State) (i : Instr) (b : Byte) (res : Word) (ov : Bool),
    (i, b, res, ov) ∈ addSubRows ra rb (s.reg ra) (s.reg rb) →
    encode i = [b, regByte ra rb] ∧
    ∃ t, exec i s = .next t ∧ t.pc = s.pc + 2 ∧
      (∀ r, r ≠ .noreg → t.reg r = if r = rb then res else s.reg r) ∧
      t.signFlag = res.msb ∧ t.zeroFlag = decide (res = 0) ∧ t.overflowFlag = ov ∧
      SameMemory s t ∧ SameDriver s t ∧ t.status = s.status ∧ t.draws = s.draws

/-- `andq` and `xorq` on operand values `va` and `vb`: the first byte and the result (43_alu.md R153, R154). -/
def logicRows (ra rb : RegId) (va vb : Word) : List (Instr × Byte × Word) :=
  [(.andq ra rb, 0x62, vb &&& va), (.xorq ra rb, 0x63, vb ^^^ va)]

/-- `andq` and `xorq` (43_alu.md R153, R154): as for addq, with the bitwise result; O is cleared, or kept with
LOGIC_CLEARS_OF false (the spec's decision D12, log 12). With `rb` = 15 the result is dropped (D6, log 12). -/
def Obligations.LogicResultsAndFlags : Prop :=
  ∀ (ra rb : RegId) (s : State) (i : Instr) (b : Byte) (res : Word),
    (i, b, res) ∈ logicRows ra rb (s.reg ra) (s.reg rb) →
    encode i = [b, regByte ra rb] ∧
    ∃ t, exec i s = .next t ∧ t.pc = s.pc + 2 ∧
      (∀ r, t.reg r = if r = rb ∧ rb ≠ .noreg then res else s.reg r) ∧
      t.signFlag = res.msb ∧ t.zeroFlag = decide (res = 0) ∧
      t.overflowFlag = (if s.params.logicClearsOf = true then false else s.overflowFlag) ∧
      SameMemory s t ∧ SameDriver s t ∧ t.status = s.status ∧ t.draws = s.draws

/-- The seven jumps, their first bytes and their conditions on the flags (44_control_transfer.md R171 to R177). -/
def jumpRows (dest : Word) (z s o : Bool) : List (Instr × Byte × Bool) :=
  [(.jmp dest, 0x70, true),
   (.jle dest, 0x71, z || (s && !o) || (!s && o)),
   (.jl dest, 0x72, (s && !o) || (!s && o)),
   (.je dest, 0x73, z),
   (.jne dest, 0x74, !z),
   (.jge dest, 0x75, s == o),
   (.jg dest, 0x76, !z && (s == o))]

/-- The JUMP class (44_control_transfer.md R170 to R177): pc takes the destination exactly when the condition holds of
the flags, else it advances by 9; nothing else changes. -/
def Obligations.JumpsGoWhenTheConditionHolds : Prop :=
  ∀ (dest : Word) (s : State) (i : Instr) (b : Byte) (c : Bool),
    (i, b, c) ∈ jumpRows dest s.zeroFlag s.signFlag s.overflowFlag →
    encode i = b :: wordBytes dest ∧
    exec i s = .next { s with pc := if c = true then dest else s.pc + 9 }

/-- `call` (44_control_transfer.md R178), both ways: where the slot x[RSP] - 8 fails the LSU check, the status becomes
ADDRESS_ERROR and pc is still the destination, with no write and RSP unchanged; else valP is stored in the slot, RSP
is the slot's address and pc the destination. -/
def Obligations.CallPushesTheReturnAddressOrFaults : Prop :=
  ∀ (dest : Word) (s : State),
    let a := s.reg .rsp - 8
    encode (.call dest) = 0x80#8 :: wordBytes dest ∧
    (lsuFault s.params a = true →
      exec (.call dest) s = .next { s with status := .addressError, pc := dest }) ∧
    (lsuFault s.params a = false →
      ∃ t, exec (.call dest) s = .next t ∧ t.pc = dest ∧ t.reg .rsp = a ∧
        (∀ k, k < 8 → a.toNat + k < s.params.memSize → t.mem.read (a.toNat + k) = wordByte (s.pc + 9) k) ∧
        SameMemoryOutside a s t ∧ SameButRegsPcMemory [.rsp] s t)

/-- `ret` (44_control_transfer.md R179), both ways: where x[RSP] fails the LSU check only the status changes; else pc
is the word whose bytes are the memory's there, as far as they exist (the others are free, log 8), and RSP advances
by 8. -/
def Obligations.ReturnPopsThePcOrFaults : Prop :=
  ∀ s : State,
    let a := s.reg .rsp
    encode .ret = [0x90] ∧
    (lsuFault s.params a = true → exec .ret s = .next { s with status := .addressError }) ∧
    (lsuFault s.params a = false →
      ∃ t, exec .ret s = .next t ∧ t.reg .rsp = a + 8 ∧
        (∀ k, k < 8 → a.toNat + k < s.params.memSize → wordByte t.pc k = s.mem.read (a.toNat + k)) ∧
        SameRegsExcept [.rsp] s t ∧ SameFlags s t ∧ SameMemory s t ∧ SameDriver s t ∧ t.status = s.status ∧
        (a.toNat + 8 ≤ s.params.memSize → t.draws = s.draws))

/-- `pushq` (45_stack.md R190), both ways: where the slot x[RSP] - 8 fails the LSU check only the status changes (that
pc stays is the spec's decision D14, log 12); else the slot holds the pre-step x[ra], RSP is the slot's address and
pc advances by 2. -/
def Obligations.PushStoresTheOldValueOrFaults : Prop :=
  ∀ (ra : RegId) (s : State),
    let a := s.reg .rsp - 8
    encode (.pushq ra) = [0xA0, regByte ra .noreg] ∧
    (lsuFault s.params a = true → exec (.pushq ra) s = .next { s with status := .addressError }) ∧
    (lsuFault s.params a = false →
      ∃ t, exec (.pushq ra) s = .next t ∧ t.pc = s.pc + 2 ∧ t.reg .rsp = a ∧
        (∀ k, k < 8 → a.toNat + k < s.params.memSize → t.mem.read (a.toNat + k) = wordByte (s.reg ra) k) ∧
        SameMemoryOutside a s t ∧ SameButRegsPcMemory [.rsp] s t)

/-- `popq` (45_stack.md R191), both ways: where x[RSP] fails the LSU check only the status changes (D14, log 12); else
RSP advances by 8 and the destination takes the word at the old RSP; for `popq %rsp` the increment stays, or the
popped word with POPQ_RSP_GETS_INCREMENT false (the spec's decision D15, log 12). -/
def Obligations.PopLoadsAndAdvancesTheStackOrFaults : Prop :=
  ∀ (ra : RegId) (s : State),
    let a := s.reg .rsp
    encode (.popq ra) = [0xB0, regByte ra .noreg] ∧
    (lsuFault s.params a = true → exec (.popq ra) s = .next { s with status := .addressError }) ∧
    (lsuFault s.params a = false →
      ∃ t v, exec (.popq ra) s = .next t ∧ t.pc = s.pc + 2 ∧
        (∀ k, k < 8 → a.toNat + k < s.params.memSize → wordByte v k = s.mem.read (a.toNat + k)) ∧
        (∀ r, t.reg r =
          if r = .rsp ∧ (ra ≠ .rsp ∨ s.params.popqRspGetsIncrement = true) then a + 8
          else if r = ra ∧ ra ≠ .noreg then v
          else s.reg r) ∧
        SameFlags s t ∧ SameMemory s t ∧ SameDriver s t ∧ t.status = s.status ∧
        (a.toNat + 8 ≤ s.params.memSize → t.draws = s.draws))

/-! ## Whole-machine rules over all instructions -/

/-- No instruction but OPQ writes a flag (10_state.md R26). -/
def Obligations.OnlyOpqWritesTheFlags : Prop :=
  ∀ (i : Instr) (s t : State), exec i s = .next t → i.isOpq = false → SameFlags s t

/-- No instruction writes a register that is not among its destinations, and none writes id 15 (10_state.md R20, R23,
R24; for id 15 the spec's decision D6, log 12). -/
def Obligations.OnlyDestinationsAreWritten : Prop :=
  ∀ (i : Instr) (s t : State), exec i s = .next t →
    SameRegsExcept i.destinations s t ∧ t.reg .noreg = s.reg .noreg

/-- The frame of memory: a form that stores at `a` leaves every byte outside the eight from `a` on as it was, and a
form that stores nothing leaves every byte (20_memory.md R45). -/
def Obligations.OnlyTheStoredBytesChange : Prop :=
  ∀ (i : Instr) (s t : State), exec i s = .next t →
    (∀ a, i.storeAddress? s = some a → SameMemoryOutside a s t) ∧
    (i.storeAddress? s = none → SameMemory s t)

/-- The sequencer's next pc, per class, jumps apart (40_sequencer.md R102, which the spec derives from the classes'
rules): valP; for a data access that fails the LSU check the pc is unchanged (the spec's decision D14, log 12), but
CALL's is its destination; RET's is the word popped, as far as its bytes exist (the others are free, log 8). -/
def Obligations.NextPcOutsideJumpsIsTheSequencers : Prop :=
  ∀ (i : Instr) (s t : State), exec i s = .next t →
    let valP := s.pc + BitVec.ofNat 64 (encode i).length
    (i.icode ∈ [.halt, .nop, .cmov, .irmovq, .opq, .iotrap] → t.pc = valP) ∧
    (∀ a, i.icode ∈ [.rmmovq, .pushq] → i.storeAddress? s = some a →
      t.pc = if lsuFault s.params a = true then s.pc else valP) ∧
    (∀ a, i.icode ∈ [.mrmovq, .popq] → i.loadAddress? s = some a →
      t.pc = if lsuFault s.params a = true then s.pc else valP) ∧
    (∀ dest, i = .call dest → t.pc = dest) ∧
    (i = .ret →
      (lsuFault s.params (s.reg .rsp) = true → t.pc = s.pc) ∧
      (lsuFault s.params (s.reg .rsp) = false →
        ∀ k, k < 8 → (s.reg .rsp).toNat + k < s.params.memSize →
          wordByte t.pc k = s.mem.read ((s.reg .rsp).toNat + k)))

/-! ## Consequences across instructions -/

/-- After `addq` and `subq`, O is set exactly when the exact signed result is outside the 64-bit range (43_alu.md R155,
its derived sentence). -/
def Obligations.OverflowFlagIsSignedOverflow : Prop :=
  ∀ (ra rb : RegId) (s t u : State),
    exec (.addq ra rb) s = .next t → exec (.subq ra rb) s = .next u →
    (t.overflowFlag = true ↔
      ¬(-2 ^ 63 ≤ (s.reg rb).toInt + (s.reg ra).toInt ∧ (s.reg rb).toInt + (s.reg ra).toInt < 2 ^ 63)) ∧
    (u.overflowFlag = true ↔
      ¬(-2 ^ 63 ≤ (s.reg rb).toInt - (s.reg ra).toInt ∧ (s.reg rb).toInt - (s.reg ra).toInt < 2 ^ 63))

/-- After `subq ra, rb` the conditions are the signed comparisons of x[rb] with x[ra] (43_alu.md R156, its derived
sentence). -/
def Obligations.ConditionsCompareAfterSubtract : Prop :=
  ∀ (ra rb : RegId) (s t : State), exec (.subq ra rb) s = .next t →
    (t.condition .le = true ↔ (s.reg rb).toInt ≤ (s.reg ra).toInt) ∧
    (t.condition .l = true ↔ (s.reg rb).toInt < (s.reg ra).toInt) ∧
    (t.condition .e = true ↔ s.reg rb = s.reg ra) ∧
    (t.condition .ne = true ↔ s.reg rb ≠ s.reg ra) ∧
    (t.condition .ge = true ↔ (s.reg ra).toInt ≤ (s.reg rb).toInt) ∧
    (t.condition .g = true ↔ (s.reg ra).toInt < (s.reg rb).toInt)

/-- Pushing a register and popping into another leaves RSP as it was and the destination equal to the pushed value
(45_stack.md R191, the source's round trip), where the slot lies in memory. -/
def Obligations.PushThenPopMovesTheValue : Prop :=
  ∀ (ra rb : RegId) (s : State), rb ≠ .rsp → rb ≠ .noreg →
    (s.reg .rsp - 8).toNat + 8 ≤ s.params.memSize →
    ∃ t u, exec (.pushq ra) s = .next t ∧ exec (.popq rb) t = .next u ∧
      u.reg rb = s.reg ra ∧ u.reg .rsp = s.reg .rsp ∧ SameRegsExcept [rb] s u ∧ u.pc = s.pc + 4

/-- A call and the return from it: pc is the address after the call and RSP what it was, where the slot lies in memory
(44_control_transfer.md R178, R179). -/
def Obligations.CallThenReturnComesBack : Prop :=
  ∀ (dest : Word) (s : State), (s.reg .rsp - 8).toNat + 8 ≤ s.params.memSize →
    ∃ t u, exec (.call dest) s = .next t ∧ exec .ret t = .next u ∧
      t.pc = dest ∧ u.pc = s.pc + 9 ∧ SameRegsExcept [] s u ∧
      SameMemoryOutside (s.reg .rsp - 8) s u

/-- What a write request stores, a read request gives back, and a fetch of its first byte sees its low byte (20_memory.md
R43, R44), where the eight bytes lie in memory. -/
def Obligations.WriteThenReadGivesTheWord : Prop :=
  ∀ (s : State) (a v : Word), a.toNat + 8 ≤ s.params.memSize →
    ∃ t, s.lsuWrite a v = some t ∧ t.lsuRead a = some (v, t) ∧
      (∀ k, k < 8 → t.mem.read (a.toNat + k) = wordByte v k) ∧
      fetchByte t.params t.mem a.toNat = wordByte v 0

/-- A store into code is what the next fetch there sees: after storing a word of the bytes of eight `nop`s at a place
that passes the fetch bound, each of the eight bytes fetches as `nop` (20_memory.md R52, which the spec derives; its
decision D25, log 12). -/
def Obligations.StoredCodeIsFetched : Prop :=
  ∀ (ra rb : RegId) (disp : Word) (s : State) (k : Nat),
    s.reg ra = 0x1010101010101010#64 → k < 8 →
    2 * ((disp + s.reg rb).toNat + 8) < s.params.memSize → (disp + s.reg rb).toNat + 8 ≤ 2 ^ 64 →
    ∃ t, exec (.rmmovq ra disp rb) s = .next t ∧
      let pc := BitVec.ofNat 64 ((disp + s.reg rb).toNat + k)
      fetch t.params t.mem pc = ⟨⟨.nop, 0, .noreg, .noreg, 0, pc + 1⟩, none⟩

/-- The stack pointers that push, call, pop and return need: with `8 <= %rsp <= MEMSIZE` the slot below passes the LSU
check, with `%rsp <= MEMSIZE - 8` the slot at it does, and with `%rsp = 0`, its reset value, a push or call faults unless
memory holds the top of the address space (70_reset_and_hazards.md R261, which the spec derives, with D28 and D7, log
12). -/
def Obligations.StackPointerBoundsForStackUse : Prop :=
  ∀ s : State,
    (8 ≤ (s.reg .rsp).toNat → (s.reg .rsp).toNat ≤ s.params.memSize → lsuFault s.params (s.reg .rsp - 8) = false) ∧
    ((s.reg .rsp).toNat + 8 ≤ s.params.memSize → lsuFault s.params (s.reg .rsp) = false) ∧
    (s.reg .rsp = 0 → s.params.memSize ≤ 2 ^ 64 - 8 → lsuFault s.params (s.reg .rsp - 8) = true)

/-- A register write is read back at the register written and nowhere else; id 15 reads as NOREG_READ_VALUE, and a write
to it changes nothing (10_state.md R22, R23; for id 15 the spec's decision D6, log 12). -/
def Obligations.RegisterWritesAreReadBack : Prop :=
  ∀ (s : State) (d r : RegId) (v : Word),
    (s.setReg d v).reg r = (if r = d ∧ d ≠ .noreg then v else s.reg r) ∧
    s.reg .noreg = s.params.noregReadValue ∧ s.setReg .noreg v = s

/-- The stage value that no rule sets is 0, or false: each of the five, for every class of record whose rule does not
set it, HALT, NOP, IOTRAP and INVALID among them (10_state.md R29, by the spec's decision D30, log 18). -/
def Obligations.UnsetStageValuesAreZero : Prop :=
  ∀ (r : Record) (s : State),
    (r.icode ∉ [Icode.cmov, .jump] → (r.stageValues s).condition = false) ∧
    (r.icode ∉ [Icode.cmov, .rmmovq, .opq, .ret, .pushq, .popq] → (r.stageValues s).valA = 0) ∧
    (r.icode ∉ [Icode.rmmovq, .mrmovq, .opq, .call, .ret, .pushq, .popq] → (r.stageValues s).valB = 0) ∧
    (r.icode ∉ [Icode.cmov, .irmovq, .rmmovq, .mrmovq, .opq, .call, .ret, .pushq, .popq] →
      (r.stageValues s).valE = 0) ∧
    (r.icode ∉ [Icode.mrmovq, .ret, .popq] → (r.stageValues s).valM = 0)

/-! ## The disassembler -/

/-- Texts the spec writes out (47_disassembler.md R212, R214, R215, R216; 95_test_vectors.md 2.1), most by its decision
D20 (log 14, log 20). -/
def Obligations.SpecRecordsRenderAsWritten : Prop :=
  render ⟨.irmovq, 0, .noreg, .rdx, 5, 10⟩ = "irmovq 0x5, %rdx" ∧
  render ⟨.rmmovq, 0, .noreg, .rbx, 8, 10⟩ = "rmmovq , 0x8(%rbx)" ∧
  render ⟨.rmmovq, 0, .rax, .noreg, 0x10, 10⟩ = "rmmovq %rax, 0x10" ∧
  render ⟨.mrmovq, 0, .rcx, .rbx, 0xfffffffffffffff8, 10⟩ = "mrmovq 0xfffffffffffffff8(%rbx), %rcx" ∧
  render ⟨.opq, 3, .rbx, .noreg, 0, 2⟩ = "xorq %rbx, " ∧
  render ⟨.pushq, 0, .noreg, .noreg, 0, 2⟩ = "pushq " ∧
  render ⟨.iotrap, 5, .noreg, .noreg, 0, 1⟩ = "iotrap 5" ∧
  render ⟨.invalid, 0xF, .noreg, .noreg, 0, 0⟩ = "" ∧
  render ⟨.opq, 4, .rax, .rcx, 0, 2⟩ = ""

/-- A record renders as nothing exactly when it stands for no instruction: INVALID, or a function code outside its
class's range (47_disassembler.md R210, R218). -/
def Obligations.OnlyNonInstructionsRenderEmpty : Prop :=
  ∀ r : Record, render r = "" ↔ r.instr? = none

/-- The code walk, one line at a time: it emits nothing for an empty region or where the fetch is INVALID, which stops
it; else the line of the instruction there, and then the walk of the rest of the region; a CODE segment gives the
region (47_disassembler.md R219), whatever its flags (the model's choice, log 23). That the INVALID which stops the walk
has no line is the spec's own decision D21 (R220; log 12), and the premise that the memory lies in the 64-bit address
space is the model's (20_memory.md R40; log 22). -/
def Obligations.CodeWalkEmitsOneLineAndGoesOn : Prop :=
  ∀ (p : Params) (m : Memory) (start : Word) (size : Nat), p.memSize ≤ 2 ^ 64 →
    let r := (fetch p m start).record
    disassembleCode p m start 0 = [] ∧
    (r.icode = .invalid → disassembleCode p m start size = []) ∧
    (0 < size → r.icode ≠ .invalid →
      disassembleCode p m start size =
        ⟨start, (List.range r.icode.length).map (fun k => m.read (start.toNat + k)), render r⟩ ::
          disassembleCode p m r.valP (size - r.icode.length)) ∧
    ∀ flags offset : Nat,
      disassembleSegment p m ⟨.code, flags, offset, start, size⟩ = some (disassembleCode p m start size)

/-- Every line of a walk is a well-formed instruction of the region: it begins inside it, its bytes are that instruction's
encoding, and its text is the rendering of the record fetched there (47_disassembler.md R219, R221). The premise that
the memory lies in the 64-bit address space is the model's (20_memory.md R40; log 22). -/
def Obligations.WalkedLinesAreEncodedInstructions : Prop :=
  ∀ (p : Params) (m : Memory) (start : Word) (size : Nat) (l : Line), p.memSize ≤ 2 ^ 64 →
    l ∈ disassembleCode p m start size →
    start.toNat ≤ l.address.toNat ∧ l.address.toNat < start.toNat + size ∧
    l.text = render (fetch p m l.address).record ∧
    ∃ i, (fetch p m l.address).record.instr? = some i ∧ i.wellFormed p = true ∧ l.bytes = encode i
end

