-- ==== Sys2Proof/Laws/Bytes.lean ====
section
/-! SUPPORT. Nibbles, bytes, little-endian words and the number tables invert each other. -/

namespace Sys2Proof

@[simp] theorem hiNibble_byteOfNibbles (h l : Nibble) : hiNibble (byteOfNibbles h l) = h := by
  revert h l; decide

@[simp] theorem loNibble_byteOfNibbles (h l : Nibble) : loNibble (byteOfNibbles h l) = l := by
  revert h l; decide

@[simp] theorem byteOfNibbles_hi_lo (b : Byte) : byteOfNibbles (hiNibble b) (loNibble b) = b := by
  revert b; decide

@[simp] theorem RegId.ofNibble_nibble (r : RegId) : RegId.ofNibble r.nibble = r := by
  cases r <;> rfl

@[simp] theorem RegId.nibble_ofNibble (n : Nibble) : (RegId.ofNibble n).nibble = n := by
  revert n; decide

/-- The bits of an assembled word, byte by byte. -/
theorem getLsbD_wordOfBytes (f : Nat → Byte) (k i : Nat) (hk : k < 8) (hi : i < 8) :
    (wordOfBytes f).getLsbD (8 * k + i) = (f k).getLsbD i := by
  have hk' : k = 0 ∨ k = 1 ∨ k = 2 ∨ k = 3 ∨ k = 4 ∨ k = 5 ∨ k = 6 ∨ k = 7 := by omega
  rcases hk' with rfl | rfl | rfl | rfl | rfl | rfl | rfl | rfl <;>
    (simp only [wordOfBytes, BitVec.getLsbD_append]
     split_ifs <;> first | omega | (congr 1; omega))

/-- Byte `k` of an assembled word is the byte it was assembled from. -/
theorem wordByte_wordOfBytes (f : Nat → Byte) (k : Nat) (hk : k < 8) : wordByte (wordOfBytes f) k = f k := by
  apply BitVec.eq_of_getLsbD_eq
  intro i hi
  simp only [wordByte, BitVec.getLsbD_extractLsb', hi, decide_true, Bool.true_and]
  exact getLsbD_wordOfBytes f k i hk hi

/-- A word is the word of its bytes. -/
theorem wordOfBytes_wordByte (v : Word) : wordOfBytes (wordByte v) = v := by
  apply BitVec.eq_of_getLsbD_eq
  intro i hi
  have h := getLsbD_wordOfBytes (wordByte v) (i / 8) (i % 8) (by omega) (by omega)
  rw [show 8 * (i / 8) + i % 8 = i by omega] at h
  have hm : i % 8 < 8 := by omega
  rw [h]
  simp only [wordByte, BitVec.getLsbD_extractLsb', hm, decide_true, Bool.true_and]
  congr 1
  omega

/-- Two words with the same bytes are the same. -/
theorem word_eq_of_bytes {v w : Word} (h : ∀ k < 8, wordByte v k = wordByte w k) : v = w := by
  rw [← wordOfBytes_wordByte v, ← wordOfBytes_wordByte w]
  simp only [wordOfBytes, h 0 (by omega), h 1 (by omega), h 2 (by omega), h 3 (by omega), h 4 (by omega),
    h 5 (by omega), h 6 (by omega), h 7 (by omega)]

/-- Assembling a word depends on the first eight bytes alone. -/
theorem wordOfBytes_congr {f g : Nat → Byte} (h : ∀ k < 8, f k = g k) : wordOfBytes f = wordOfBytes g := by
  simp only [wordOfBytes, h 0 (by omega), h 1 (by omega), h 2 (by omega), h 3 (by omega), h 4 (by omega),
    h 5 (by omega), h 6 (by omega), h 7 (by omega)]

@[simp] theorem length_wordBytes (v : Word) : (wordBytes v).length = 8 := rfl

/-- Byte `k` of the list of a word's bytes. -/
theorem getD_wordBytes (v : Word) (k : Nat) (hk : k < 8) (d : Byte) : (wordBytes v).getD k d = wordByte v k := by
  have hk' : k = 0 ∨ k = 1 ∨ k = 2 ∨ k = 3 ∨ k = 4 ∨ k = 5 ∨ k = 6 ∨ k = 7 := by omega
  rcases hk' with rfl | rfl | rfl | rfl | rfl | rfl | rfl | rfl <;> rfl

end Sys2Proof
end

