-- ==== Sys2Proof/Laws/Memory.lean ====
section
/-! SUPPORT. The memory array: reads after writes, and the canonical form that every operation keeps. -/

namespace Sys2Proof.Machine

theorem Memory.read_erase (m : Memory) (a x : Nat) :
    (m.erase a).read x = if x = a then Memory.unlisted else m.read x := by
  induction m with
  | nil => simp [Memory.erase, Memory.read]
  | cons c m ih =>
    obtain ⟨y, b⟩ := c
    by_cases hay : a = y
    · subst hay
      simp only [Memory.erase, if_true, ih, Memory.read]
      split <;> rfl
    · simp only [Memory.erase, hay, if_false, Memory.read, ih]
      split_ifs <;> simp_all

theorem Memory.read_insert (m : Memory) (a x : Nat) (b : Byte) :
    (m.insert a b).read x = if x = a then b else m.read x := by
  induction m with
  | nil => simp [Memory.insert, Memory.read]
  | cons c m ih =>
    obtain ⟨y, d⟩ := c
    simp only [Memory.insert]
    split_ifs with h1 h2 h3 h4 <;> simp_all [Memory.read]

/-- Read after write: the written byte at the written address, the old byte elsewhere. -/
theorem Memory.read_write (m : Memory) (a x : Nat) (b : Byte) :
    (m.write a b).read x = if x = a then b else m.read x := by
  unfold Memory.write
  split_ifs with h1 h2 h2 <;> simp_all [Memory.read_erase, Memory.read_insert]

/-- Read after writing a run of bytes from `a` on: byte `x - a` of the run at an address `x` of it that exists, the
old byte elsewhere. -/
theorem Memory.read_writeBytes (cap : Nat) (m : Memory) (a : Nat) (bs : List Byte) (x : Nat) :
    (m.writeBytes cap a bs).read x =
      if a ≤ x ∧ x < a + bs.length ∧ x < cap then bs.getD (x - a) 0 else m.read x := by
  induction bs generalizing m a with
  | nil =>
    have : ¬(a ≤ x ∧ x < a + ([] : List Byte).length ∧ x < cap) := by simp only [List.length_nil]; omega
    simp only [Memory.writeBytes, this, if_false]
  | cons b bs ih =>
    simp only [Memory.writeBytes, ih, List.length_cons]
    by_cases hx : x = a
    · subst hx
      by_cases hc : x < cap <;> simp [hc, Memory.read_write]
    · by_cases hin : a + 1 ≤ x ∧ x < a + 1 + bs.length ∧ x < cap
      · have h2 : a ≤ x ∧ x < a + (bs.length + 1) ∧ x < cap := by omega
        obtain ⟨k, hk⟩ : ∃ k, x - a = k + 1 := ⟨x - a - 1, by omega⟩
        have hk' : x - (a + 1) = k := by omega
        simp only [hin, h2, hk, hk', and_self, if_true, List.getD_cons_succ]
      · have h2 : ¬(a ≤ x ∧ x < a + (bs.length + 1) ∧ x < cap) := by omega
        simp only [hin, h2, if_false]
        split <;> simp [Memory.read_write, hx]

theorem Memory.wfFrom_mono {lo lo' : Nat} (h : lo' ≤ lo) {m : Memory} (hm : Memory.wfFrom lo m = true) :
    Memory.wfFrom lo' m = true := by
  cases m with
  | nil => rfl
  | cons c m =>
    simp only [Memory.wfFrom, Bool.and_eq_true, decide_eq_true_eq] at hm ⊢
    exact ⟨⟨h.trans hm.1.1, hm.1.2⟩, hm.2⟩

theorem Memory.wfFrom_erase {lo : Nat} {m : Memory} (a : Nat) (hm : Memory.wfFrom lo m = true) :
    Memory.wfFrom lo (m.erase a) = true := by
  induction m generalizing lo with
  | nil => rfl
  | cons c m ih =>
    obtain ⟨x, b⟩ := c
    simp only [Memory.wfFrom, Bool.and_eq_true, decide_eq_true_eq] at hm
    simp only [Memory.erase]
    split_ifs
    · exact ih (Memory.wfFrom_mono (by omega) hm.2)
    · simp only [Memory.wfFrom, Bool.and_eq_true, decide_eq_true_eq]
      exact ⟨hm.1, ih hm.2⟩

theorem Memory.wfFrom_insert {lo : Nat} {m : Memory} {a : Nat} {b : Byte} (ha : lo ≤ a) (hb : b ≠ Memory.unlisted)
    (hm : Memory.wfFrom lo m = true) : Memory.wfFrom lo (m.insert a b) = true := by
  induction m generalizing lo with
  | nil => simp [Memory.insert, Memory.wfFrom, ha, hb]
  | cons c m ih =>
    obtain ⟨x, d⟩ := c
    simp only [Memory.wfFrom, Bool.and_eq_true, decide_eq_true_eq] at hm
    simp only [Memory.insert]
    split_ifs with h1 h2
    · simp [Memory.wfFrom, ha, hb, hm.1.2, hm.2, Nat.succ_le_of_lt h1]
    · subst h2
      simp [Memory.wfFrom, ha, hb, hm.2]
    · simp only [Memory.wfFrom, Bool.and_eq_true, decide_eq_true_eq]
      exact ⟨hm.1, ih (by omega) hm.2⟩

/-- A byte write keeps the canonical form. -/
theorem Memory.wf_write {m : Memory} (a : Nat) (b : Byte) (hm : m.wf = true) : (m.write a b).wf = true := by
  unfold Memory.write
  split_ifs with h
  · exact Memory.wfFrom_erase a hm
  · exact Memory.wfFrom_insert (Nat.zero_le a) h hm

/-- A write of a run of bytes keeps the canonical form. -/
theorem Memory.wf_writeBytes {m : Memory} (cap a : Nat) (bs : List Byte) (hm : m.wf = true) :
    (m.writeBytes cap a bs).wf = true := by
  induction bs generalizing m a with
  | nil => exact hm
  | cons b bs ih =>
    simp only [Memory.writeBytes]
    apply ih
    split_ifs
    · exact Memory.wf_write a b hm
    · exact hm

/-- The empty memory is in canonical form, and lists no address that does not exist. -/
theorem Memory.wf_nil : Memory.wf [] = true := rfl

theorem Memory.within_erase {cap : Nat} {m : Memory} (a : Nat) (hm : m.within cap = true) :
    (m.erase a).within cap = true := by
  induction m with
  | nil => rfl
  | cons c m ih =>
    obtain ⟨x, b⟩ := c
    simp only [Memory.within, List.all_cons, Bool.and_eq_true] at hm ih
    simp only [Memory.erase]
    split_ifs
    · exact ih hm.2
    · simpa [Memory.within, hm.1] using ih hm.2

theorem Memory.within_insert {cap : Nat} {m : Memory} {a : Nat} (b : Byte) (ha : a < cap)
    (hm : m.within cap = true) : (m.insert a b).within cap = true := by
  induction m with
  | nil => simp [Memory.insert, Memory.within, ha]
  | cons c m ih =>
    obtain ⟨x, d⟩ := c
    simp only [Memory.within, List.all_cons, Bool.and_eq_true, decide_eq_true_eq] at hm ih
    simp only [Memory.insert]
    split_ifs
    · simp only [Memory.within, List.all_cons, Bool.and_eq_true, decide_eq_true_eq]
      exact ⟨ha, hm⟩
    · simp only [Memory.within, List.all_cons, Bool.and_eq_true, decide_eq_true_eq]
      exact ⟨ha, hm.2⟩
    · simp only [Memory.within, List.all_cons, Bool.and_eq_true, decide_eq_true_eq]
      exact ⟨hm.1, ih hm.2⟩

/-- A byte write at an address that exists lists no address that does not. -/
theorem Memory.within_write {cap : Nat} {m : Memory} {a : Nat} (b : Byte) (ha : a < cap)
    (hm : m.within cap = true) : (m.write a b).within cap = true := by
  unfold Memory.write
  split_ifs
  · exact Memory.within_erase a hm
  · exact Memory.within_insert b ha hm

/-- A write of a run of bytes lists no address at or beyond the capacity it is given. -/
theorem Memory.within_writeBytes {cap : Nat} {m : Memory} (a : Nat) (bs : List Byte) (hm : m.within cap = true) :
    (m.writeBytes cap a bs).within cap = true := by
  induction bs generalizing m a with
  | nil => exact hm
  | cons b bs ih =>
    simp only [Memory.writeBytes]
    apply ih
    split_ifs with h
    · exact Memory.within_write b h hm
    · exact hm

/-- A memory in canonical form that lists only existing addresses reads as 0 beyond the capacity. -/
theorem Memory.read_of_within {cap : Nat} {m : Memory} (hm : m.within cap = true) {a : Nat} (ha : cap ≤ a) :
    m.read a = 0 := by
  induction m with
  | nil => rfl
  | cons c m ih =>
    obtain ⟨x, b⟩ := c
    simp only [Memory.within, List.all_cons, Bool.and_eq_true, decide_eq_true_eq] at hm ih
    have hx : a ≠ x := by omega
    simp only [Memory.read, hx, if_false]
    exact ih hm.2

end Sys2Proof.Machine
end

