-- ==== Sys2Proof/Laws/State.lean ====
section
/-! SUPPORT. One lemma per field of State per update, each true by rfl, so that no later proof unfolds a record
update. -/

namespace Sys2Proof.Machine

variable (s : State)

@[simp] theorem State.setReg_params (r : RegId) (v : Word) : (s.setReg r v).params = s.params := rfl
@[simp] theorem State.setReg_regs (r : RegId) (v : Word) : (s.setReg r v).regs = s.regs.set r v := rfl
@[simp] theorem State.setReg_pc (r : RegId) (v : Word) : (s.setReg r v).pc = s.pc := rfl
@[simp] theorem State.setReg_zeroFlag (r : RegId) (v : Word) : (s.setReg r v).zeroFlag = s.zeroFlag := rfl
@[simp] theorem State.setReg_signFlag (r : RegId) (v : Word) : (s.setReg r v).signFlag = s.signFlag := rfl
@[simp] theorem State.setReg_overflowFlag (r : RegId) (v : Word) : (s.setReg r v).overflowFlag = s.overflowFlag := rfl
@[simp] theorem State.setReg_status (r : RegId) (v : Word) : (s.setReg r v).status = s.status := rfl
@[simp] theorem State.setReg_count (r : RegId) (v : Word) : (s.setReg r v).count = s.count := rfl
@[simp] theorem State.setReg_last (r : RegId) (v : Word) : (s.setReg r v).last = s.last := rfl
@[simp] theorem State.setReg_mem (r : RegId) (v : Word) : (s.setReg r v).mem = s.mem := rfl
@[simp] theorem State.setReg_draws (r : RegId) (v : Word) : (s.setReg r v).draws = s.draws := rfl

@[simp] theorem State.setPc_params (a : Word) : (s.setPc a).params = s.params := rfl
@[simp] theorem State.setPc_regs (a : Word) : (s.setPc a).regs = s.regs := rfl
@[simp] theorem State.setPc_pc (a : Word) : (s.setPc a).pc = a := rfl
@[simp] theorem State.setPc_zeroFlag (a : Word) : (s.setPc a).zeroFlag = s.zeroFlag := rfl
@[simp] theorem State.setPc_signFlag (a : Word) : (s.setPc a).signFlag = s.signFlag := rfl
@[simp] theorem State.setPc_overflowFlag (a : Word) : (s.setPc a).overflowFlag = s.overflowFlag := rfl
@[simp] theorem State.setPc_status (a : Word) : (s.setPc a).status = s.status := rfl
@[simp] theorem State.setPc_count (a : Word) : (s.setPc a).count = s.count := rfl
@[simp] theorem State.setPc_last (a : Word) : (s.setPc a).last = s.last := rfl
@[simp] theorem State.setPc_mem (a : Word) : (s.setPc a).mem = s.mem := rfl
@[simp] theorem State.setPc_draws (a : Word) : (s.setPc a).draws = s.draws := rfl

@[simp] theorem State.raise_params (st : Status) : (s.raise st).params = s.params := rfl
@[simp] theorem State.raise_regs (st : Status) : (s.raise st).regs = s.regs := rfl
@[simp] theorem State.raise_pc (st : Status) : (s.raise st).pc = s.pc := rfl
@[simp] theorem State.raise_zeroFlag (st : Status) : (s.raise st).zeroFlag = s.zeroFlag := rfl
@[simp] theorem State.raise_signFlag (st : Status) : (s.raise st).signFlag = s.signFlag := rfl
@[simp] theorem State.raise_overflowFlag (st : Status) : (s.raise st).overflowFlag = s.overflowFlag := rfl
@[simp] theorem State.raise_status (st : Status) : (s.raise st).status = st := rfl
@[simp] theorem State.raise_count (st : Status) : (s.raise st).count = s.count := rfl
@[simp] theorem State.raise_last (st : Status) : (s.raise st).last = s.last := rfl
@[simp] theorem State.raise_mem (st : Status) : (s.raise st).mem = s.mem := rfl
@[simp] theorem State.raise_draws (st : Status) : (s.raise st).draws = s.draws := rfl

@[simp] theorem State.setAluFlags_params (op : AluOp) (a b : Word) : (s.setAluFlags op a b).params = s.params := rfl
@[simp] theorem State.setAluFlags_regs (op : AluOp) (a b : Word) : (s.setAluFlags op a b).regs = s.regs := rfl
@[simp] theorem State.setAluFlags_pc (op : AluOp) (a b : Word) : (s.setAluFlags op a b).pc = s.pc := rfl
@[simp] theorem State.setAluFlags_zeroFlag (op : AluOp) (a b : Word) : (s.setAluFlags op a b).zeroFlag = (aluResult op a b == 0) := rfl
@[simp] theorem State.setAluFlags_signFlag (op : AluOp) (a b : Word) : (s.setAluFlags op a b).signFlag = (aluResult op a b).msb := rfl
@[simp] theorem State.setAluFlags_overflowFlag (op : AluOp) (a b : Word) : (s.setAluFlags op a b).overflowFlag = aluOverflow s.params.logicClearsOf op a b s.overflowFlag := rfl
@[simp] theorem State.setAluFlags_status (op : AluOp) (a b : Word) : (s.setAluFlags op a b).status = s.status := rfl
@[simp] theorem State.setAluFlags_count (op : AluOp) (a b : Word) : (s.setAluFlags op a b).count = s.count := rfl
@[simp] theorem State.setAluFlags_last (op : AluOp) (a b : Word) : (s.setAluFlags op a b).last = s.last := rfl
@[simp] theorem State.setAluFlags_mem (op : AluOp) (a b : Word) : (s.setAluFlags op a b).mem = s.mem := rfl
@[simp] theorem State.setAluFlags_draws (op : AluOp) (a b : Word) : (s.setAluFlags op a b).draws = s.draws := rfl

@[simp] theorem State.beginStep_params (f : Fetched) : (s.beginStep f).params = s.params := rfl
@[simp] theorem State.beginStep_regs (f : Fetched) : (s.beginStep f).regs = s.regs := rfl
@[simp] theorem State.beginStep_pc (f : Fetched) : (s.beginStep f).pc = s.pc := rfl
@[simp] theorem State.beginStep_zeroFlag (f : Fetched) : (s.beginStep f).zeroFlag = s.zeroFlag := rfl
@[simp] theorem State.beginStep_signFlag (f : Fetched) : (s.beginStep f).signFlag = s.signFlag := rfl
@[simp] theorem State.beginStep_overflowFlag (f : Fetched) : (s.beginStep f).overflowFlag = s.overflowFlag := rfl
@[simp] theorem State.beginStep_status (f : Fetched) : (s.beginStep f).status = f.status.getD s.status := rfl
@[simp] theorem State.beginStep_count (f : Fetched) : (s.beginStep f).count = s.count + 1 := rfl
@[simp] theorem State.beginStep_last (f : Fetched) : (s.beginStep f).last = some f.record := rfl
@[simp] theorem State.beginStep_mem (f : Fetched) : (s.beginStep f).mem = s.mem := rfl
@[simp] theorem State.beginStep_draws (f : Fetched) : (s.beginStep f).draws = s.draws := rfl

@[simp] theorem State.resetWith_params (p : Params) (image : Memory) (entry : Word) :
    (State.resetWith p image entry).params = p := rfl
@[simp] theorem State.resetWith_regs (p : Params) (image : Memory) (entry : Word) :
    (State.resetWith p image entry).regs = RegFile.zero := rfl
@[simp] theorem State.resetWith_pc (p : Params) (image : Memory) (entry : Word) :
    (State.resetWith p image entry).pc = entry := rfl
@[simp] theorem State.resetWith_zeroFlag (p : Params) (image : Memory) (entry : Word) :
    (State.resetWith p image entry).zeroFlag = false := rfl
@[simp] theorem State.resetWith_signFlag (p : Params) (image : Memory) (entry : Word) :
    (State.resetWith p image entry).signFlag = false := rfl
@[simp] theorem State.resetWith_overflowFlag (p : Params) (image : Memory) (entry : Word) :
    (State.resetWith p image entry).overflowFlag = false := rfl
@[simp] theorem State.resetWith_status (p : Params) (image : Memory) (entry : Word) :
    (State.resetWith p image entry).status = .running := rfl
@[simp] theorem State.resetWith_count (p : Params) (image : Memory) (entry : Word) :
    (State.resetWith p image entry).count = 0 := rfl
@[simp] theorem State.resetWith_last (p : Params) (image : Memory) (entry : Word) :
    (State.resetWith p image entry).last = none := rfl
@[simp] theorem State.resetWith_mem (p : Params) (image : Memory) (entry : Word) :
    (State.resetWith p image entry).mem = image := rfl
@[simp] theorem State.resetWith_draws (p : Params) (image : Memory) (entry : Word) :
    (State.resetWith p image entry).draws = 0 := rfl

@[simp] theorem State.withFetchWord_params (n w : Nat) : (s.withFetchWord n w).params = s.params := rfl
@[simp] theorem State.withFetchWord_regs (n w : Nat) : (s.withFetchWord n w).regs = s.regs := rfl
@[simp] theorem State.withFetchWord_pc (n w : Nat) : (s.withFetchWord n w).pc = s.pc := rfl
@[simp] theorem State.withFetchWord_zeroFlag (n w : Nat) : (s.withFetchWord n w).zeroFlag = s.zeroFlag := rfl
@[simp] theorem State.withFetchWord_signFlag (n w : Nat) : (s.withFetchWord n w).signFlag = s.signFlag := rfl
@[simp] theorem State.withFetchWord_overflowFlag (n w : Nat) : (s.withFetchWord n w).overflowFlag = s.overflowFlag := rfl
@[simp] theorem State.withFetchWord_status (n w : Nat) : (s.withFetchWord n w).status = s.status := rfl
@[simp] theorem State.withFetchWord_count (n w : Nat) : (s.withFetchWord n w).count = s.count := rfl
@[simp] theorem State.withFetchWord_last (n w : Nat) : (s.withFetchWord n w).last = s.last := rfl
@[simp] theorem State.withFetchWord_mem (n w : Nat) :
    (s.withFetchWord n w).mem = s.mem.writeBytes s.params.memSize s.pc.toNat (tableBytes n w) := rfl
@[simp] theorem State.withFetchWord_draws (n w : Nat) : (s.withFetchWord n w).draws = s.draws := rfl

@[simp] theorem State.setReg_noreg (v : Word) : s.setReg .noreg v = s := rfl

end Sys2Proof.Machine
end

