-- ==== Sys2Proof/Laws/Regs.lean ====
section
/-! SUPPORT. Register reads after register writes (10_state.md R22, R23), and reads through the other updates. -/

namespace Sys2Proof.Machine

/-- A read of the register file after a write: the written value at the written register, where it names
storage, and the old content elsewhere. -/
theorem RegFile.get_set (f : RegFile) (d r : RegId) (v n : Word) :
    (f.set d v).get n r = if r = d ∧ d ≠ .noreg then v else f.get n r := by
  cases d <;> cases r <;> rfl

/-- What a register write does to every register read. -/
theorem State.reg_setReg (s : State) (d r : RegId) (v : Word) :
    (s.setReg d v).reg r = if r = d ∧ d ≠ .noreg then v else s.reg r :=
  RegFile.get_set ..

/-- A read of register id 15 gives NOREG_READ_VALUE. -/
theorem State.reg_noreg (s : State) : s.reg .noreg = s.params.noregReadValue := rfl

/-- Register reads depend on the register file and the parameters alone. -/
theorem State.reg_congr {s t : State} (hr : t.regs = s.regs) (hp : t.params = s.params) (r : RegId) :
    t.reg r = s.reg r := by
  simp only [State.reg, hr, hp]

@[simp] theorem State.reg_setPc (s : State) (a : Word) (r : RegId) : (s.setPc a).reg r = s.reg r := rfl

@[simp] theorem State.reg_raise (s : State) (st : Status) (r : RegId) : (s.raise st).reg r = s.reg r := rfl

@[simp] theorem State.reg_setAluFlags (s : State) (op : AluOp) (a b : Word) (r : RegId) :
    (s.setAluFlags op a b).reg r = s.reg r := rfl

@[simp] theorem State.reg_beginStep (s : State) (f : Fetched) (r : RegId) : (s.beginStep f).reg r = s.reg r := rfl

@[simp] theorem RegFile.get_zero (n : Word) (r : RegId) : RegFile.zero.get n r = if r = .noreg then n else 0 := by
  cases r <;> rfl

end Sys2Proof.Machine
end

