-- ==== Sys2Proof/Laws/Lsu.lean ====
section
/-! SUPPORT. What the load-store unit can do (20_memory.md R45, R46), said once for each request. -/

namespace Sys2Proof.Machine

/-- The bounds check in inequalities (R46). -/
theorem lsuFault_eq_true_iff (p : Params) (a : Word) :
    lsuFault p a = true ↔ p.memSize ≤ a.toNat ∨ (p.straddleFaults = true ∧ p.memSize < a.toNat + 8) := by
  simp [lsuFault]

/-- An access that runs to the capacity at most does not fault. -/
theorem lsuFault_of_fits {p : Params} {a : Word} (h : a.toNat + 8 ≤ p.memSize) : lsuFault p a = false := by
  rw [← Bool.not_eq_true, lsuFault_eq_true_iff]
  omega

/-- An access that does not fault starts below the capacity. -/
theorem lt_of_not_lsuFault {p : Params} {a : Word} (h : lsuFault p a = false) : a.toNat < p.memSize := by
  rw [← Bool.not_eq_true, lsuFault_eq_true_iff] at h
  omega

/-- Everything a write request can do: it faults, or it stores the word's bytes and nothing else changes. -/
theorem State.lsuWrite_cases (s : State) (a v : Word) :
    (lsuFault s.params a = true ∧ s.lsuWrite a v = none) ∨
    (lsuFault s.params a = false ∧
      s.lsuWrite a v = some { s with mem := s.mem.writeBytes s.params.memSize a.toNat (wordBytes v) }) := by
  unfold State.lsuWrite
  cases h : lsuFault s.params a <;> simp

/-- Everything a read request can do: it faults, or it answers the word of the bytes read and changes nothing but
the draws. -/
theorem State.lsuRead_cases (s : State) (a : Word) :
    (lsuFault s.params a = true ∧ s.lsuRead a = none) ∨
    (lsuFault s.params a = false ∧
      s.lsuRead a = some (wordOfBytes (s.readByte a),
        { s with draws := if straddles s.params a then s.draws + 8 else s.draws })) := by
  unfold State.lsuRead
  cases h : lsuFault s.params a <;> cases h2 : straddles s.params a <;> simp

/-- Everything the read of memory_wb_pc can do: it faults, or it sets valM to the word of the bytes read, and changes
nothing of the state but the draws. -/
theorem State.readStage_cases (s : State) (a : Word) (v : StageValues) :
    (lsuFault s.params a = true ∧ s.readStage a v = none) ∨
    (lsuFault s.params a = false ∧
      s.readStage a v = some ({ v with valM := wordOfBytes (s.readByte a) },
        { s with draws := if straddles s.params a then s.draws + 8 else s.draws })) := by
  rcases s.lsuRead_cases a with ⟨hf, hr⟩ | ⟨hf, hr⟩ <;> simp [State.readStage, hf, hr]

/-- The bytes of memory after a store of a word: its own eight, as far as they exist, and the old ones elsewhere. -/
theorem Memory.read_writeWord (cap : Nat) (m : Memory) (a : Nat) (v : Word) (x : Nat) :
    (m.writeBytes cap a (wordBytes v)).read x =
      if a ≤ x ∧ x < a + 8 ∧ x < cap then wordByte v (x - a) else m.read x := by
  rw [Memory.read_writeBytes, length_wordBytes]
  split_ifs with h
  · exact getD_wordBytes v (x - a) (by omega) 0
  · rfl

/-- A byte read that exists is the memory's. -/
theorem State.readByte_of_lt {s : State} {a : Word} {k : Nat} (h : a.toNat + k < s.params.memSize) :
    s.readByte a k = s.mem.read (a.toNat + k) := by
  simp [State.readByte, h]

end Sys2Proof.Machine
end

