-- ==== Sys2Proof/Laws/Exec.lean ====
section
/-! SUPPORT. What each shared datapath can do, said once: the meanings that access memory fault or take one given
next state, and the others take one given next state. -/

namespace Sys2Proof.Machine

/-- HALT: one next state, which differs in status and pc only. -/
theorem execHalt_eq (s : State) : execHalt s = .next ((s.raise .halted).setPc (s.pc + 1)) := rfl

/-- NOP: one next state, which differs in pc only. -/
theorem execNop_eq (s : State) : execNop s = .next (s.setPc (s.pc + 1)) := rfl

/-- CMOV: one next state, with the destination written or not. -/
theorem cmovStep_eq (c : Cond) (ra rb : RegId) (s : State) :
    cmovStep c ra rb s =
      .next ((if s.condition c then s.setReg rb (s.reg ra) else s).setPc (s.pc + 2)) := rfl

/-- OPQ: one next state. -/
theorem opqStep_eq (op : AluOp) (ra rb : RegId) (s : State) :
    opqStep op ra rb s =
      .next (((s.setAluFlags op (s.reg ra) (s.reg rb)).setReg rb (aluResult op (s.reg ra) (s.reg rb))).setPc
        (s.pc + 2)) := rfl

/-- JUMP: one next state, which differs in pc only. -/
theorem jumpStep_eq (c : Cond) (dest : Word) (s : State) :
    jumpStep c dest s = .next (s.setPc (if s.condition c then dest else s.pc + 9)) := rfl

/-- IOTRAP: one next state, which differs in pc only. -/
theorem iotrapStep_eq (s : State) : iotrapStep s = .next (s.setPc (s.pc + 1)) := rfl

/-- IRMOVQ: one next state. -/
theorem execIrmovq_eq (imm : Word) (rb : RegId) (s : State) :
    execIrmovq imm rb s = .next ((s.setReg rb imm).setPc (s.pc + 10)) := rfl

/-- RMMOVQ faults or stores. -/
theorem execRmmovq_cases (ra : RegId) (disp : Word) (rb : RegId) (s : State) :
    (lsuFault s.params (disp + s.reg rb) = true ∧ execRmmovq ra disp rb s = .next (s.raise .addressError)) ∨
    (lsuFault s.params (disp + s.reg rb) = false ∧
      execRmmovq ra disp rb s =
        .next ({ s with
          mem := s.mem.writeBytes s.params.memSize (disp + s.reg rb).toNat (wordBytes (s.reg ra)) }.setPc
            (s.pc + 10))) := by
  rcases s.lsuWrite_cases (disp + s.reg rb) (s.reg ra) with ⟨hf, hw⟩ | ⟨hf, hw⟩
  · exact .inl ⟨hf, by simp only [execRmmovq, rmmovqExecute, State.effectiveAddress, hw]⟩
  · exact .inr ⟨hf, by simp only [execRmmovq, rmmovqExecute, State.effectiveAddress, hw]; rfl⟩

/-- MRMOVQ faults or loads. -/
theorem execMrmovq_cases (disp : Word) (rb ra : RegId) (s : State) :
    (lsuFault s.params (disp + s.reg rb) = true ∧ execMrmovq disp rb ra s = .next (s.raise .addressError)) ∨
    (lsuFault s.params (disp + s.reg rb) = false ∧
      execMrmovq disp rb ra s =
        .next (({ s with
          draws := if straddles s.params (disp + s.reg rb) then s.draws + 8 else s.draws }.setReg ra
            (wordOfBytes (s.readByte (disp + s.reg rb)))).setPc (s.pc + 10))) := by
  rcases s.readStage_cases (mrmovqExecute disp rb s).valE (mrmovqExecute disp rb s) with ⟨hf, hw⟩ | ⟨hf, hw⟩
  · exact .inl ⟨hf, by simp only [execMrmovq, hw]⟩
  · exact .inr ⟨hf, by simp only [execMrmovq, hw]; rfl⟩

/-- CALL faults and still jumps, or pushes and jumps. -/
theorem execCall_cases (dest : Word) (s : State) :
    (lsuFault s.params (s.reg .rsp - 8) = true ∧
      execCall dest s = .next ((s.raise .addressError).setPc dest)) ∨
    (lsuFault s.params (s.reg .rsp - 8) = false ∧
      execCall dest s =
        .next (({ s with
          mem := s.mem.writeBytes s.params.memSize (s.reg .rsp - 8).toNat (wordBytes (s.pc + 9)) }.setReg .rsp
            (s.reg .rsp - 8)).setPc dest)) := by
  rcases s.lsuWrite_cases (s.reg .rsp - 8) (s.pc + 9) with ⟨hf, hw⟩ | ⟨hf, hw⟩
  · exact .inl ⟨hf, by
      simp only [execCall, callExecute, State.pushAddress, State.valP, Icode.length]
      erw [hw]⟩
  · exact .inr ⟨hf, by
      simp only [execCall, callExecute, State.pushAddress, State.valP, Icode.length]
      erw [hw]⟩

/-- RET faults or pops the pc. -/
theorem execRet_cases (s : State) :
    (lsuFault s.params (s.reg .rsp) = true ∧ execRet s = .next (s.raise .addressError)) ∨
    (lsuFault s.params (s.reg .rsp) = false ∧
      execRet s =
        .next (({ s with draws := if straddles s.params (s.reg .rsp) then s.draws + 8 else s.draws }.setPc
          (wordOfBytes (s.readByte (s.reg .rsp)))).setReg .rsp (s.reg .rsp + 8))) := by
  rcases s.readStage_cases (popExecute s).valA (popExecute s) with ⟨hf, hw⟩ | ⟨hf, hw⟩
  · exact .inl ⟨hf, by simp only [execRet, hw]⟩
  · exact .inr ⟨hf, by simp only [execRet, hw]; rfl⟩

/-- PUSHQ faults or pushes. -/
theorem execPushq_cases (ra : RegId) (s : State) :
    (lsuFault s.params (s.reg .rsp - 8) = true ∧ execPushq ra s = .next (s.raise .addressError)) ∨
    (lsuFault s.params (s.reg .rsp - 8) = false ∧
      execPushq ra s =
        .next (({ s with
          mem := s.mem.writeBytes s.params.memSize (s.reg .rsp - 8).toNat (wordBytes (s.reg ra)) }.setReg .rsp
            (s.reg .rsp - 8)).setPc (s.pc + 2))) := by
  rcases s.lsuWrite_cases (s.reg .rsp - 8) (s.reg ra) with ⟨hf, hw⟩ | ⟨hf, hw⟩
  · exact .inl ⟨hf, by simp only [execPushq, pushqExecute, State.pushAddress, hw]⟩
  · exact .inr ⟨hf, by simp only [execPushq, pushqExecute, State.pushAddress, hw]; rfl⟩

/-- POPQ faults or pops. -/
theorem execPopq_cases (ra : RegId) (s : State) :
    (lsuFault s.params (s.reg .rsp) = true ∧ execPopq ra s = .next (s.raise .addressError)) ∨
    (lsuFault s.params (s.reg .rsp) = false ∧
      execPopq ra s =
        .next ((popqWriteback ra (wordOfBytes (s.readByte (s.reg .rsp))) (s.reg .rsp + 8)
          { s with draws := if straddles s.params (s.reg .rsp) then s.draws + 8 else s.draws }).setPc
            (s.pc + 2))) := by
  rcases s.readStage_cases (popExecute s).valA (popExecute s) with ⟨hf, hw⟩ | ⟨hf, hw⟩
  · exact .inl ⟨hf, by simp only [execPopq, hw]⟩
  · exact .inr ⟨hf, by simp only [execPopq, hw]; rfl⟩

/-- Every register after POPQ's two writes: the incremented stack pointer, or the popped word, by
POPQ_RSP_GETS_INCREMENT when the destination is RSP. -/
theorem reg_popqWriteback (ra r : RegId) (valM valE : Word) (s : State) :
    (popqWriteback ra valM valE s).reg r =
      if r = .rsp ∧ (ra ≠ .rsp ∨ s.params.popqRspGetsIncrement = true) then valE
      else if r = ra ∧ ra ≠ .noreg then valM
      else s.reg r := by
  unfold popqWriteback
  cases h : s.params.popqRspGetsIncrement
  · by_cases h1 : ra = .rsp <;> by_cases h2 : r = .rsp <;> by_cases h3 : r = ra <;>
      simp_all [State.reg_setReg]
  · by_cases h2 : r = .rsp <;> by_cases h3 : r = ra <;> simp_all [State.reg_setReg]

/-- POPQ's register writes write nothing but the register file. -/
theorem popqWriteback_eq (ra : RegId) (valM valE : Word) (s : State) :
    popqWriteback ra valM valE s = { s with regs := (popqWriteback ra valM valE s).regs } := by
  unfold popqWriteback
  split <;> rfl

end Sys2Proof.Machine
end

