-- ==== Sys2Proof/Laws/Fetch.lean ====
section
/-! SUPPORT. What a fetch can answer, said once, and the decoder's tables (30_encoding.md R63, R66, R67). -/

namespace Sys2Proof

/-- A class nibble is unrecognized exactly from 13 on. -/
theorem Icode.ofNibble_eq_none (n : Nibble) : Icode.ofNibble n = none ↔ 13 ≤ n.toNat := by
  revert n; decide

/-- The class table never gives INVALID. -/
theorem Icode.ofNibble_ne_invalid (n : Nibble) : Icode.ofNibble n ≠ some .invalid := by
  revert n; decide

/-- Every class that decodes has a length from 1 to 10. -/
theorem Icode.length_bounds {c : Icode} (h : c ≠ .invalid) : 1 ≤ c.length ∧ c.length ≤ 10 := by
  revert h; cases c <;> decide

/-- Register id by number: id 15 alone names no storage. -/
theorem RegId.isReg_ofNibble (n : Nibble) : (RegId.ofNibble n).isReg = decide (n.toNat ≠ 15) := by
  revert n; decide

/-- The class, the function code and `valP` of an extracted record. -/
theorem rawRecord_fields {pc : Word} {bs : List Byte} {r : Record} (h : rawRecord pc bs = some r) :
    Icode.ofNibble (hiNibble (byteAt bs 0)) = some r.icode ∧ r.ifun = loNibble (byteAt bs 0) ∧
    r.valP = pc + BitVec.ofNat 64 r.icode.length ∧ r.icode ≠ .invalid := by
  unfold rawRecord at h
  split at h
  · cases h
  · rename_i c hc
    cases h
    refine ⟨hc, rfl, rfl, fun hi => Icode.ofNibble_ne_invalid _ (hc.trans (congrArg some hi))⟩

/-- A record whose function code is in its class's range stands for an instruction. -/
theorem Record.instr?_of_functionOk {r : Record} (h : r.functionOk = true) : ∃ i, r.instr? = some i := by
  simp only [Record.functionOk, decide_eq_true_eq] at h
  unfold Record.instr?
  obtain ⟨j, hj⟩ : ∃ j, r.ifun.toNat = j := ⟨_, rfl⟩
  rw [hj] at h ⊢
  rcases hc : r.icode <;> simp only [hc, Icode.badSentinel] at h <;> interval_cases j <;> exact ⟨_, rfl⟩

/-- An INVALID record stands for none. -/
theorem Record.instr?_invalid {r : Record} (h : r.icode = .invalid) : r.instr? = none := by
  unfold Record.instr?
  rw [h]

/-- A valid record has a function code in range. -/
theorem Record.functionOk_of_valid {p : Params} {r : Record} (h : r.valid p = true) : r.functionOk = true := by
  simp only [Record.valid, Bool.and_eq_true] at h
  exact h.1

/-- A valid record is not INVALID. -/
theorem Record.icode_of_valid {p : Params} {r : Record} (h : r.valid p = true) : r.icode ≠ .invalid := by
  intro hc
  simp [Record.valid, Record.functionOk, hc, Icode.badSentinel] at h

end Sys2Proof

namespace Sys2Proof.Machine

/-- A fetched byte that exists is the memory's. -/
theorem fetchByte_of_lt {p : Params} {m : Memory} {a : Nat} (h : a < p.memSize) : fetchByte p m a = m.read a :=
  if_pos h

/-- Byte `k` of the ten bytes a fetch sees. -/
theorem byteAt_fetchWindow (p : Params) (m : Memory) (a k : Nat) (hk : k < 10) :
    byteAt (fetchWindow p m a) k = fetchByte p m (a + k) := by
  interval_cases k <;> rfl

/-- The fetch bound as an inequality. -/
theorem exceedsFetchBound_eq_true_iff (p : Params) (pc : Word) (n : Nat) :
    exceedsFetchBound p pc n = true ↔
      p.memSize < pc.toNat + (pc.toNat + n) ∨
        (p.fetchBoundInclusive = true ∧ pc.toNat + (pc.toNat + n) = p.memSize) := by
  unfold exceedsFetchBound
  cases p.fetchBoundInclusive <;> simp
  omega

/-- A fetch that passes the bound lies in memory. -/
theorem le_of_not_exceedsFetchBound {p : Params} {pc : Word} {n : Nat} (h : exceedsFetchBound p pc n = false) :
    pc.toNat + (pc.toNat + n) ≤ p.memSize := by
  by_contra hn
  have := (exceedsFetchBound_eq_true_iff p pc n).2 (.inl (by omega))
  simp [h] at this

/-- Everything a fetch can answer: out of range, an unrecognized class, a record that fails the bound, a record that
fails validation, or a valid record with no status. -/
theorem fetch_cases (p : Params) (m : Memory) (pc : Word) :
    (p.memSize ≤ pc.toNat ∧ fetch p m pc = ⟨outOfRangeRecord pc, some .addressError⟩) ∨
    (pc.toNat < p.memSize ∧ rawRecord pc (fetchWindow p m pc.toNat) = none ∧
      fetch p m pc = ⟨unrecognizedRecord, some .invalidInstruction⟩) ∨
    (∃ r, pc.toNat < p.memSize ∧ rawRecord pc (fetchWindow p m pc.toNat) = some r ∧
      ((exceedsFetchBound p pc r.icode.length = true ∧
          fetch p m pc = ⟨{ r with icode := .invalid }, some .addressError⟩) ∨
        (exceedsFetchBound p pc r.icode.length = false ∧ r.valid p = false ∧
          fetch p m pc = ⟨{ r with icode := .invalid }, some .invalidInstruction⟩) ∨
        (exceedsFetchBound p pc r.icode.length = false ∧ r.valid p = true ∧ fetch p m pc = ⟨r, none⟩))) := by
  unfold fetch
  split_ifs with h
  · exact .inl ⟨h, rfl⟩
  · right
    rcases hr : rawRecord pc (fetchWindow p m pc.toNat) with _ | r
    · exact .inl ⟨by omega, rfl, rfl⟩
    · refine .inr ⟨r, by omega, rfl, ?_⟩
      cases hb : exceedsFetchBound p pc r.icode.length <;> cases hv : r.valid p <;>
        simp [checkBound, checkValid, hb, hv]

/-- A fetch with a status: its record is INVALID and the status is one of the two errors. -/
theorem fetch_of_status {p : Params} {m : Memory} {pc : Word} {st : Status} (h : (fetch p m pc).status = some st) :
    (fetch p m pc).record.icode = .invalid ∧
    (st = .addressError ∨ (st = .invalidInstruction ∧ pc.toNat < p.memSize)) := by
  rcases fetch_cases p m pc with ⟨_, hf⟩ | ⟨hlt, _, hf⟩ | ⟨r, hlt, _, ⟨_, hf⟩ | ⟨_, _, hf⟩ | ⟨_, _, hf⟩⟩ <;>
    rw [hf] at h ⊢ <;> cases h
  · exact ⟨rfl, .inl rfl⟩
  · exact ⟨rfl, .inr ⟨rfl, hlt⟩⟩
  · exact ⟨rfl, .inl rfl⟩
  · exact ⟨rfl, .inr ⟨rfl, hlt⟩⟩

/-- A fetch with no status: the record is the extracted one, it is valid and it passes the bound. -/
theorem fetch_of_no_status {p : Params} {m : Memory} {pc : Word} (h : (fetch p m pc).status = none) :
    pc.toNat < p.memSize ∧ rawRecord pc (fetchWindow p m pc.toNat) = some (fetch p m pc).record ∧
    (fetch p m pc).record.valid p = true ∧
    exceedsFetchBound p pc (fetch p m pc).record.icode.length = false := by
  rcases fetch_cases p m pc with ⟨_, hf⟩ | ⟨_, _, hf⟩ | ⟨r, hlt, hr, ⟨_, hf⟩ | ⟨_, _, hf⟩ | ⟨hb, hv, hf⟩⟩ <;>
    rw [hf] at h ⊢ <;> try cases h
  exact ⟨hlt, hr, hv, hb⟩

end Sys2Proof.Machine
end

