-- ==== Sys2Proof/Laws/PerInstr.lean ====
section
/-! SUPPORT. The family EncodeLength: the encoding of an instruction has the length of its class, and its first byte
has the class's nibble. One lemma per constructor; the host's case split puts them together. -/

namespace Sys2Proof.Laws.EncodeLength

/-- The encoding has the length the class table gives (30_encoding.md R61, R63), and the class table reads its first
nibble as the instruction's class (R60). -/
def Statement (i : Instr) : Prop :=
  (encode i).length = i.icode.length ∧ Icode.ofNibble (hiNibble (byteAt (encode i) 0)) = some i.icode

/-- The statement from the first byte and the rest of the encoding. -/
theorem of_bytes {i : Instr} {b : Byte} {tail : List Byte} (he : encode i = b :: tail)
    (hl : tail.length + 1 = i.icode.length) (hb : Icode.ofNibble (hiNibble b) = some i.icode) : Statement i := by
  refine ⟨?_, ?_⟩
  · rw [he, List.length_cons, hl]
  · rw [he]
    exact hb

theorem halt : Statement .halt := of_bytes rfl rfl rfl
theorem nop : Statement .nop := of_bytes rfl rfl rfl
theorem rrmovq (ra rb : RegId) : Statement (.rrmovq ra rb) := of_bytes rfl rfl rfl
theorem cmovle (ra rb : RegId) : Statement (.cmovle ra rb) := of_bytes rfl rfl rfl
theorem cmovl (ra rb : RegId) : Statement (.cmovl ra rb) := of_bytes rfl rfl rfl
theorem cmove (ra rb : RegId) : Statement (.cmove ra rb) := of_bytes rfl rfl rfl
theorem cmovne (ra rb : RegId) : Statement (.cmovne ra rb) := of_bytes rfl rfl rfl
theorem cmovge (ra rb : RegId) : Statement (.cmovge ra rb) := of_bytes rfl rfl rfl
theorem cmovg (ra rb : RegId) : Statement (.cmovg ra rb) := of_bytes rfl rfl rfl
theorem irmovq (imm : Word) (rb : RegId) : Statement (.irmovq imm rb) := of_bytes rfl rfl rfl
theorem rmmovq (ra : RegId) (disp : Word) (rb : RegId) : Statement (.rmmovq ra disp rb) := of_bytes rfl rfl rfl
theorem mrmovq (disp : Word) (rb : RegId) (ra : RegId) : Statement (.mrmovq disp rb ra) := of_bytes rfl rfl rfl
theorem addq (ra rb : RegId) : Statement (.addq ra rb) := of_bytes rfl rfl rfl
theorem subq (ra rb : RegId) : Statement (.subq ra rb) := of_bytes rfl rfl rfl
theorem andq (ra rb : RegId) : Statement (.andq ra rb) := of_bytes rfl rfl rfl
theorem xorq (ra rb : RegId) : Statement (.xorq ra rb) := of_bytes rfl rfl rfl
theorem jmp (dest : Word) : Statement (.jmp dest) := of_bytes rfl rfl rfl
theorem jle (dest : Word) : Statement (.jle dest) := of_bytes rfl rfl rfl
theorem jl (dest : Word) : Statement (.jl dest) := of_bytes rfl rfl rfl
theorem je (dest : Word) : Statement (.je dest) := of_bytes rfl rfl rfl
theorem jne (dest : Word) : Statement (.jne dest) := of_bytes rfl rfl rfl
theorem jge (dest : Word) : Statement (.jge dest) := of_bytes rfl rfl rfl
theorem jg (dest : Word) : Statement (.jg dest) := of_bytes rfl rfl rfl
theorem call (dest : Word) : Statement (.call dest) := of_bytes rfl rfl rfl
theorem ret : Statement .ret := of_bytes rfl rfl rfl
theorem pushq (ra : RegId) : Statement (.pushq ra) := of_bytes rfl rfl rfl
theorem popq (ra : RegId) : Statement (.popq ra) := of_bytes rfl rfl rfl
theorem iotrap0 : Statement .iotrap0 := of_bytes rfl rfl rfl
theorem iotrap1 : Statement .iotrap1 := of_bytes rfl rfl rfl
theorem iotrap2 : Statement .iotrap2 := of_bytes rfl rfl rfl
theorem iotrap3 : Statement .iotrap3 := of_bytes rfl rfl rfl
theorem iotrap4 : Statement .iotrap4 := of_bytes rfl rfl rfl
theorem iotrap5 : Statement .iotrap5 := of_bytes rfl rfl rfl

end Sys2Proof.Laws.EncodeLength
end

