-- ==== Sys2Proof/Laws/Step.lean ====
section
/-! SUPPORT. What a step can do, said once: the post-step check, the loop's exit, the two forms of an architectural
step, and the equations of the loops (40_sequencer.md R101 to R105). -/

namespace Sys2Proof.Machine

/-- Every instruction answers a next state. -/
theorem exec_next (i : Instr) (s : State) : ∃ t, exec i s = .next t := by
  cases i
  case rmmovq ra disp rb => rcases execRmmovq_cases ra disp rb s with ⟨_, h⟩ | ⟨_, h⟩ <;> exact ⟨_, h⟩
  case mrmovq disp rb ra => rcases execMrmovq_cases disp rb ra s with ⟨_, h⟩ | ⟨_, h⟩ <;> exact ⟨_, h⟩
  case call dest => rcases execCall_cases dest s with ⟨_, h⟩ | ⟨_, h⟩ <;> exact ⟨_, h⟩
  case ret => rcases execRet_cases s with ⟨_, h⟩ | ⟨_, h⟩ <;> exact ⟨_, h⟩
  case pushq ra => rcases execPushq_cases ra s with ⟨_, h⟩ | ⟨_, h⟩ <;> exact ⟨_, h⟩
  case popq ra => rcases execPopq_cases ra s with ⟨_, h⟩ | ⟨_, h⟩ <;> exact ⟨_, h⟩
  all_goals exact ⟨_, rfl⟩

/-- The post-step check writes the status alone. -/
theorem State.postCheck_eq (s : State) :
    s.postCheck = { s with status := if s.params.memSize ≤ s.pc.toNat then .addressError else s.status } := by
  unfold State.postCheck
  split <;> rfl

/-- The loop's exit writes pc alone. -/
theorem State.loopExit_eq (s : State) : s.loopExit = { s with pc := s.loopExit.pc } := by
  unfold State.loopExit
  split <;> rfl

/-- The pc after the loop's exit. -/
theorem State.loopExit_pc (s : State) :
    s.loopExit.pc =
      if s.status = .addressError then (match s.last with | some r => correctedPc r | none => s.pc) else s.pc := by
  unfold State.loopExit
  split
  · rename_i r h1 h2
    rw [h1, h2]
    rfl
  · rename_i h
    split_ifs with hs
    · rcases hl : s.last with _ | r
      · rfl
      · exact (h r hs hl).elim
    · rfl

/-- The two forms of an architectural step: the fetch wrote a status, which stays unless the pc check raises
ADDRESS_ERROR; or the instruction fetched ran. -/
theorem archStep_cases (s : State) :
    (∃ st, (fetch s.params s.mem s.pc).status = some st ∧
      archStep s = .next
        ({ s with
          status := st
          count := s.count + 1
          last := some (fetch s.params s.mem s.pc).record } : State).postCheck) ∨
    ((fetch s.params s.mem s.pc).status = none ∧
      ∃ i, (fetch s.params s.mem s.pc).record.instr? = some i ∧
      ∃ t, exec i { s with count := s.count + 1, last := some (fetch s.params s.mem s.pc).record } = .next t ∧
        archStep s = .next t.postCheck) := by
  rcases hf : (fetch s.params s.mem s.pc).status with _ | st
  · right
    obtain ⟨i, hi⟩ := Record.instr?_of_functionOk (Record.functionOk_of_valid (fetch_of_no_status hf).2.2.1)
    obtain ⟨t, ht⟩ := exec_next i { s with count := s.count + 1, last := some (fetch s.params s.mem s.pc).record }
    refine ⟨rfl, i, hi, t, ht, ?_⟩
    have hb : s.beginStep (fetch s.params s.mem s.pc) =
        { s with count := s.count + 1, last := some (fetch s.params s.mem s.pc).record } := by
      simp [State.beginStep, hf]
    simp only [archStep, executeRecord, hi, hb, ht]
  · left
    obtain ⟨hi, he⟩ := fetch_of_status hf
    refine ⟨st, rfl, ?_⟩
    have hb : s.beginStep (fetch s.params s.mem s.pc) =
        { s with status := st, count := s.count + 1, last := some (fetch s.params s.mem s.pc).record } := by
      simp [State.beginStep, hf]
    simp only [archStep, executeRecord, Record.instr?_invalid hi, hb, executeNonInstr, hi]
    rcases he with rfl | ⟨rfl, _⟩ <;> rfl

/-- A step from RUNNING is an architectural step and the loop's exit. -/
theorem step_of_archStep {s t : State} (h : s.status = .running) (ha : archStep s = .next t) :
    step s = .next t.loopExit := by
  simp only [step, h, driverStep, ha]

/-- Where a step answers a next state, the status was RUNNING, and what the step did is that. -/
theorem archStep_of_step {s t : State} (h : step s = .next t) :
    s.status = .running ∧ ∃ u, archStep s = .next u ∧ t = u.loopExit := by
  have hr : s.status = .running := by
    unfold step at h
    split at h <;> first | assumption | cases h
  refine ⟨hr, ?_⟩
  simp only [step, hr, driverStep] at h
  split at h <;> cases h
  exact ⟨_, by assumption, rfl⟩

/-- The loop on a terminal status. -/
theorem runLoop_ended (n : Nat) {s : State} (h : s.status ≠ .running) : runLoop n s = some s.loopExit := by
  unfold runLoop
  split <;> first | rfl | contradiction

/-- The loop without fuel. -/
theorem runLoop_zero {s : State} (h : s.status = .running) : runLoop 0 s = none := by
  unfold runLoop
  split <;> simp_all

/-- The loop with fuel. -/
theorem runLoop_succ (n : Nat) {s t : State} (h : s.status = .running) (ha : archStep s = .next t) :
    runLoop (n + 1) s = runLoop n t := by
  conv => lhs; unfold runLoop
  split <;> simp_all

/-- The traced loop on a terminal status. -/
theorem tracedLoop_ended (n : Nat) {s : State} (h : s.status ≠ .running) :
    tracedLoop n s = ([], some s.loopExit) := by
  unfold tracedLoop
  split <;> first | rfl | contradiction

/-- The traced loop without fuel. -/
theorem tracedLoop_zero {s : State} (h : s.status = .running) : tracedLoop 0 s = ([], none) := by
  unfold tracedLoop
  split <;> simp_all

/-- The traced loop with fuel. -/
theorem tracedLoop_succ (n : Nat) {s t : State} (h : s.status = .running) (ha : archStep s = .next t) :
    tracedLoop (n + 1) s = (traceEntry s :: (tracedLoop n t).1, (tracedLoop n t).2) := by
  conv => lhs; unfold tracedLoop
  split <;> simp_all

end Sys2Proof.Machine
end

