-- ==== Sys2Proof/Tests/Slice0.lean ====
section
/-! SUPPORT. The model's own tests. Expected results come from the spec: its encodings (30_encoding.md), its examples
and its vectors (95_test_vectors.md). After them, for every statement with hypotheses, a `test_meets_` theorem: a
concrete state and operands that meet them together, at boundary values where a clause has a range. -/

namespace Sys2Proof.Tests

open Sys2Proof Sys2Proof.Machine

/-! ## Helpers -/

/-- A booted machine with `bs` at `pc`. -/
def bytesAt (pc : Word) (bs : List Byte) : State := State.boot defaultParams [(pc.toNat, bs)] pc

/-- The same with memory of `cap` bytes. -/
def bytesIn (cap : Nat) (pc : Word) (bs : List Byte) : State :=
  State.boot { defaultParams with memSize := cap } [(pc.toNat, bs)] pc

/-- The outcome is a next state of which `f` holds. -/
def nextIs (o : Host.Outcome State Fault Refusal) (f : State → Bool) : Bool :=
  match o with
  | .next t => f t
  | .fault _ => false
  | .refused _ => false

/-- The bytes decode to `i` with none left. -/
def reads (bs : List Byte) (i : Instr) : Bool :=
  match decode defaultParams bs with
  | .ok (j, []) => decide (j = i)
  | _ => false

/-- The bytes decode to nothing, for the reason `e`. -/
def rejects (bs : List Byte) (e : DecodeError) : Bool :=
  match decode defaultParams bs with
  | .ok _ => false
  | .error d => decide (d = e)

/-- A state with three registers set. -/
def withRegs (rax rbx rsp : Word) : State :=
  ((State.reset.setReg .rax rax).setReg .rbx rbx).setReg .rsp rsp

/-- A state with its flags set. -/
def withFlags (z s o : Bool) : State :=
  { withRegs 9 2 0x800 with zeroFlag := z, signFlag := s, overflowFlag := o, pc := 0x20 }

/-! ## WellFormed refuses an ill-formed term of each check -/

theorem test_wellFormed_cmov_source : (Instr.cmovle .noreg .rax).wellFormed defaultParams = false := by decide
theorem test_wellFormed_cmov_destination : (Instr.rrmovq .rax .noreg).wellFormed defaultParams = false := by decide
theorem test_wellFormed_irmovq : (Instr.irmovq 5 .noreg).wellFormed defaultParams = false := by decide
theorem test_wellFormed_popq : (Instr.popq .noreg).wellFormed defaultParams = false := by decide
theorem test_wellFormed_pushq :
    (Instr.pushq .noreg).wellFormed { defaultParams with pushqRaAllowsNoreg := false } = false := by decide
theorem test_wellFormed_accepts_noreg :
    (Instr.pushq .noreg).wellFormed defaultParams = true ∧ (Instr.addq .noreg .noreg).wellFormed defaultParams = true ∧
    (Instr.popq .noreg).wellFormed { defaultParams with popqRaAllowsNoreg := true } = true := by decide

/-! ## Decoding, from words written out by hand (30_encoding.md R61 to R64; 95_test_vectors.md 2.1) -/

theorem test_decode_halt : reads [0x00] .halt = true := by decide
theorem test_decode_nop : reads [0x10] .nop = true := by decide
theorem test_decode_rrmovq : reads [0x20, 0x12] (.rrmovq .rcx .rdx) = true := by decide
theorem test_decode_cmovle : reads [0x21, 0x03] (.cmovle .rax .rbx) = true := by decide
theorem test_decode_cmovl : reads [0x22, 0x45] (.cmovl .rsp .rbp) = true := by decide
theorem test_decode_cmove : reads [0x23, 0x67] (.cmove .rsi .rdi) = true := by decide
theorem test_decode_cmovne : reads [0x24, 0x89] (.cmovne .r8 .r9) = true := by decide
theorem test_decode_cmovge : reads [0x25, 0xAB] (.cmovge .r10 .r11) = true := by decide
theorem test_decode_cmovg : reads [0x26, 0xCD] (.cmovg .r12 .r13) = true := by decide
theorem test_decode_irmovq : reads [0x30, 0xF2, 5, 0, 0, 0, 0, 0, 0, 0] (.irmovq 5 .rdx) = true := by decide
theorem test_decode_irmovq_order :
    reads [0x30, 0xFE, 0x88, 0x77, 0x66, 0x55, 0x44, 0x33, 0x22, 0x11] (.irmovq 0x1122334455667788 .r14) = true := by
  decide
theorem test_decode_rmmovq :
    reads [0x40, 0x0F, 0x10, 0, 0, 0, 0, 0, 0, 0] (.rmmovq .rax 0x10 .noreg) = true := by decide
theorem test_decode_mrmovq :
    reads [0x50, 0x13, 0xF8, 0xFF, 0xFF, 0xFF, 0xFF, 0xFF, 0xFF, 0xFF] (.mrmovq 0xFFFFFFFFFFFFFFF8 .rbx .rcx) = true := by
  decide
theorem test_decode_addq : reads [0x60, 0x03] (.addq .rax .rbx) = true := by decide
theorem test_decode_subq : reads [0x61, 0x32] (.subq .rbx .rdx) = true := by decide
theorem test_decode_andq : reads [0x62, 0xF3] (.andq .noreg .rbx) = true := by decide
theorem test_decode_xorq : reads [0x63, 0x3F] (.xorq .rbx .noreg) = true := by decide
theorem test_decode_jmp : reads [0x70, 0, 1, 0, 0, 0, 0, 0, 0] (.jmp 0x100) = true := by decide
theorem test_decode_jle : reads [0x71, 0, 1, 0, 0, 0, 0, 0, 0] (.jle 0x100) = true := by decide
theorem test_decode_jl : reads [0x72, 0, 1, 0, 0, 0, 0, 0, 0] (.jl 0x100) = true := by decide
theorem test_decode_je : reads [0x73, 0, 1, 0, 0, 0, 0, 0, 0] (.je 0x100) = true := by decide
theorem test_decode_jne : reads [0x74, 0, 1, 0, 0, 0, 0, 0, 0] (.jne 0x100) = true := by decide
theorem test_decode_jge : reads [0x75, 0, 1, 0, 0, 0, 0, 0, 0] (.jge 0x100) = true := by decide
theorem test_decode_jg : reads [0x76, 0, 1, 0, 0, 0, 0, 0, 0x80] (.jg 0x8000000000000100) = true := by decide
theorem test_decode_call : reads [0x80, 0, 2, 0, 0, 0, 0, 0, 0] (.call 0x200) = true := by decide
theorem test_decode_ret : reads [0x90] .ret = true := by decide
theorem test_decode_pushq : reads [0xA0, 0x3F] (.pushq .rbx) = true := by decide
theorem test_decode_pushq_noreg : reads [0xA0, 0xFF] (.pushq .noreg) = true := by decide
theorem test_decode_popq : reads [0xB0, 0x3F] (.popq .rbx) = true := by decide
theorem test_decode_iotraps :
    reads [0xC0] .iotrap0 = true ∧ reads [0xC1] .iotrap1 = true ∧ reads [0xC2] .iotrap2 = true ∧
    reads [0xC3] .iotrap3 = true ∧ reads [0xC4] .iotrap4 = true ∧ reads [0xC5] .iotrap5 = true := by decide
theorem test_decode_bad_function :
    rejects [0x01] .badFunctionCode = true ∧ rejects [0x27, 0x01] .badFunctionCode = true ∧
    rejects [0x64, 0x01] .badFunctionCode = true ∧ rejects [0xC6] .badFunctionCode = true ∧
    rejects [0xA1, 0x3F] .badFunctionCode = true ∧ rejects [0x91] .badFunctionCode = true := by decide
theorem test_decode_bad_register :
    rejects [0x20, 0xF1] .badRegister = true ∧ rejects [0x26, 0x0F] .badRegister = true ∧
    rejects [0xA0, 0x33] .badRegister = true ∧ rejects [0xB0, 0xFF] .badRegister = true ∧
    rejects [0x30, 0x02, 5, 0, 0, 0, 0, 0, 0, 0] .badRegister = true := by decide
theorem test_decode_unrecognized :
    rejects [0xD0] .unrecognizedClass = true ∧ rejects [0xFF] .unrecognizedClass = true := by decide
theorem test_decode_truncated : rejects [] .truncated = true ∧ rejects [0x30, 0xF2, 5] .truncated = true := by decide

/-- Opcode-table words: byte 0 is the high byte of a two-byte first word, and the only byte of a one-byte one. -/
theorem test_table_words :
    decodeTableWord 16 0x6103 = some (.subq .rax .rbx) ∧ decodeTableWord 8 0xC5 = some .iotrap5 ∧
    decodeTableWord 16 0x30F2 = some (.irmovq 0 .rdx) ∧ decodeTableWord 8 0x70 = some (.jmp 0) := by decide

theorem test_table_word_runs :
    nextIs (step (State.reset.withFetchWord 16 0x30F2)) (fun t => decide (t.pc = 10 ∧ t.status = .running)) = true := by
  decide

/-! ## The fetch bound (95_test_vectors.md 2.2) and the run's ends -/

theorem test_fetch_bound_equal :
    (fetch defaultParams (bytesAt 0x7FB [0x30, 0xF0, 1]).mem 0x7FB).record.icode = .irmovq ∧
    (fetch { defaultParams with fetchBoundInclusive := true } (bytesAt 0x7FB [0x30, 0xF0, 1]).mem 0x7FB).status =
      some .addressError := by decide

theorem test_fetch_bound_overrides :
    (fetch defaultParams (bytesAt 0x7FC [0x30, 0x02]).mem 0x7FC).status = some .addressError ∧
    (fetch defaultParams (bytesAt 0xFFF [0xD0]).mem 0xFFF).status = some .invalidInstruction := by decide

/-- 95_test_vectors.md 2.2: the final pc is the record's valP. -/
theorem test_fetch_bound_final_pc :
    nextIs (step (bytesAt 0x7FC [0x30, 0xF0])) (fun t => decide (t.pc = 0x806 ∧ t.status = .addressError)) = true := by
  decide

/-- 95_test_vectors.md E4: the call faults, and the final pc is valP + 1. -/
theorem test_call_leniency :
    nextIs (step (bytesAt 0x100 [0x80, 0, 2]))
      (fun t => decide (t.pc = 0x10A ∧ t.status = .addressError ∧ t.reg .rsp = 0 ∧ t.mem = (bytesAt 0x100 [0x80, 0, 2]).mem)) =
      true := by decide

/-- 46_iotrap_invalid.md R207's example. -/
theorem test_invalid_step :
    nextIs (step (bytesAt 0x1A [0xD0])) (fun t => decide (t.pc = 0x1A ∧ t.status = .invalidInstruction ∧ t.count = 1)) =
      true := by decide

theorem test_no_step_after_halt :
    (match step { State.reset with status := .halted } with
      | .fault (.runEnded .halted) => true
      | _ => false) = true := by decide

/-! ## One step of each meaning -/

theorem test_halt :
    nextIs (step (bytesAt 0x16 [0x00])) (fun t => decide (t.pc = 0x17 ∧ t.status = .halted ∧ t.count = 1)) = true := by
  decide
theorem test_nop :
    nextIs (step (bytesAt 0x100 [0x10])) (fun t => decide (t.pc = 0x101 ∧ t.status = .running)) = true := by decide
theorem test_rrmovq :
    nextIs (exec (.rrmovq .rax .rbx) (withFlags false false false)) (fun t => decide (t.reg .rbx = 9 ∧ t.pc = 0x22)) =
      true := by decide
theorem test_cmovle :
    nextIs (exec (.cmovle .rax .rbx) (withFlags true false false)) (fun t => decide (t.reg .rbx = 9)) = true ∧
    nextIs (exec (.cmovle .rax .rbx) (withFlags false true true)) (fun t => decide (t.reg .rbx = 2 ∧ t.pc = 0x22)) = true :=
  by decide
theorem test_cmovl :
    nextIs (exec (.cmovl .rax .rbx) (withFlags false false false)) (fun t => decide (t.reg .rbx = 2)) = true ∧
    nextIs (exec (.cmovl .rax .rbx) (withFlags false false true)) (fun t => decide (t.reg .rbx = 9)) = true := by decide
theorem test_cmove :
    nextIs (exec (.cmove .rax .rbx) (withFlags true false false)) (fun t => decide (t.reg .rbx = 9)) = true := by decide
theorem test_cmovne :
    nextIs (exec (.cmovne .rax .rbx) (withFlags true false false)) (fun t => decide (t.reg .rbx = 2)) = true := by decide
theorem test_cmovge :
    nextIs (exec (.cmovge .rax .rbx) (withFlags false true true)) (fun t => decide (t.reg .rbx = 9)) = true := by decide
theorem test_cmovg :
    nextIs (exec (.cmovg .rax .rbx) (withFlags false false false)) (fun t => decide (t.reg .rbx = 9)) = true ∧
    nextIs (exec (.cmovg .rax .rbx) (withFlags true false false)) (fun t => decide (t.reg .rbx = 2)) = true := by decide
theorem test_irmovq :
    nextIs (step (bytesAt 0 [0x30, 0xF2, 5])) (fun t => decide (t.reg .rdx = 5 ∧ t.pc = 10)) = true := by decide
/-- 42_moves.md R139's example. -/
theorem test_rmmovq :
    nextIs (exec (.rmmovq .rax 8 .rbx) (withRegs 0x1122334455667788 0x200 0))
      (fun t => decide (t.mem = [(0x208, 0x88), (0x209, 0x77), (0x20A, 0x66), (0x20B, 0x55), (0x20C, 0x44), (0x20D, 0x33),
        (0x20E, 0x22), (0x20F, 0x11)] ∧ t.pc = 10)) = true := by decide
theorem test_rmmovq_straddle :
    nextIs (exec (.rmmovq .rax 0xFF9 .noreg) (withRegs 1 0 0))
      (fun t => decide (t.status = .addressError ∧ t.pc = 0 ∧ t.mem = [])) = true ∧
    nextIs (exec (.rmmovq .rax 0xFFF .noreg)
        { withRegs 0x0201 0 0 with params := { defaultParams with straddleFaults := false } })
      (fun t => decide (t.status = .running ∧ t.mem = [(0xFFF, 1)])) = true := by decide
/-- 42_moves.md R140's example. -/
theorem test_mrmovq :
    nextIs (exec (.mrmovq 8 .rbx .rcx)
        { withRegs 0 0x200 0 with mem := loadPieces 4096 [(0x208, [0x88, 0x77, 0x66, 0x55, 0x44, 0x33, 0x22, 0x11])] })
      (fun t => decide (t.reg .rcx = 0x1122334455667788 ∧ t.pc = 10)) = true := by decide
/-- 95_test_vectors.md 2.3. -/
theorem test_addq :
    nextIs (exec (.addq .rax .rbx) (withRegs 1 0x7FFFFFFFFFFFFFFF 0))
      (fun t => decide (t.reg .rbx = 0x8000000000000000) && t.overflowFlag && t.signFlag && !t.zeroFlag) = true ∧
    nextIs (exec (.addq .rax .rbx) (withRegs 0x8000000000000000 0x8000000000000000 0))
      (fun t => decide (t.reg .rbx = 0) && t.overflowFlag && !t.signFlag && t.zeroFlag) = true := by decide
theorem test_subq :
    nextIs (exec (.subq .rax .rbx) (withRegs 5 3 0))
      (fun t => decide (t.reg .rbx = 0xFFFFFFFFFFFFFFFE) && !t.overflowFlag && t.signFlag && !t.zeroFlag) = true ∧
    nextIs (exec (.subq .rax .rbx) (withRegs 1 0x8000000000000000 0))
      (fun t => decide (t.reg .rbx = 0x7FFFFFFFFFFFFFFF) && t.overflowFlag && !t.signFlag && !t.zeroFlag) = true := by decide
theorem test_andq :
    nextIs (exec (.andq .rax .rbx) { withRegs 0xFF00 0x0FF0 0 with overflowFlag := true })
      (fun t => decide (t.reg .rbx = 0x0F00) && !t.overflowFlag && !t.signFlag && !t.zeroFlag) = true := by decide
theorem test_xorq :
    nextIs (exec (.xorq .rax .rax) (withRegs 7 0 0))
      (fun t => decide (t.reg .rax = 0) && !t.overflowFlag && !t.signFlag && t.zeroFlag) = true := by decide
theorem test_jumps_taken :
    nextIs (exec (.jmp 0x100) (withFlags false false false)) (fun t => decide (t.pc = 0x100)) = true ∧
    nextIs (exec (.jle 0x100) (withFlags false true false)) (fun t => decide (t.pc = 0x100)) = true ∧
    nextIs (exec (.je 0x100) (withFlags true false false)) (fun t => decide (t.pc = 0x100)) = true ∧
    nextIs (exec (.jge 0x100) (withFlags false true true)) (fun t => decide (t.pc = 0x100)) = true := by decide
theorem test_jumps_not_taken :
    nextIs (exec (.jl 0x100) (withFlags true false false)) (fun t => decide (t.pc = 0x29)) = true ∧
    nextIs (exec (.jne 0x100) (withFlags true false false)) (fun t => decide (t.pc = 0x29)) = true ∧
    nextIs (exec (.jg 0x100) (withFlags false true false)) (fun t => decide (t.pc = 0x29)) = true := by decide
/-- 44_control_transfer.md R178's example. -/
theorem test_call :
    nextIs (exec (.call 0x200) { withRegs 0 0 0x800 with pc := 0x100 })
      (fun t => decide (t.mem = [(0x7F8, 0x09), (0x7F9, 0x01)] ∧ t.reg .rsp = 0x7F8 ∧ t.pc = 0x200)) = true := by decide
/-- 44_control_transfer.md R179's example. -/
theorem test_ret :
    nextIs (exec .ret { withRegs 0 0 0x7F8 with mem := [(0x7F8, 0x09), (0x7F9, 0x01)] })
      (fun t => decide (t.reg .rsp = 0x800 ∧ t.pc = 0x109)) = true := by decide
/-- 45_stack.md R190's example, and `pushq %rsp`. -/
theorem test_pushq :
    nextIs (exec (.pushq .rbx) (withRegs 0 0xABC 0x800))
      (fun t => decide (t.mem = [(0x7F8, 0xBC), (0x7F9, 0x0A)] ∧ t.reg .rsp = 0x7F8 ∧ t.pc = 2)) = true ∧
    nextIs (exec (.pushq .rsp) (withRegs 0 0 0x800)) (fun t => decide (t.mem = [(0x7F9, 0x08)])) = true := by decide
/-- 45_stack.md R191's example, and `popq %rsp` under both readings. -/
theorem test_popq :
    nextIs (exec (.popq .rcx) { withRegs 0 0 0x7F8 with mem := [(0x7F8, 0xBC), (0x7F9, 0x0A)] })
      (fun t => decide (t.reg .rcx = 0xABC ∧ t.reg .rsp = 0x800)) = true ∧
    nextIs (exec (.popq .rsp) { withRegs 0 0 0x7F8 with mem := [(0x7F8, 0xBC)] }) (fun t => decide (t.reg .rsp = 0x800)) =
      true := by decide
theorem test_popq_rsp_other_reading :
    nextIs (exec (.popq .rsp)
        { withRegs 0 0 0x7F8 with
          mem := [(0x7F8, 0xBC)]
          params := { defaultParams with popqRspGetsIncrement := false } })
      (fun t => decide (t.reg .rsp = 0xBC)) = true := by decide
theorem test_iotraps :
    nextIs (step (bytesAt 0x40 [0xC0])) (fun t => decide (t.pc = 0x41 ∧ t.status = .running)) = true ∧
    nextIs (step (bytesAt 0x40 [0xC5])) (fun t => decide (t.pc = 0x41 ∧ t.status = .running)) = true := by decide

/-- 47_disassembler.md R219: the walk stops at the first INVALID and gives no line for it. -/
theorem test_walk :
    (disassembleCode defaultParams (bytesAt 0 [0x60, 0x03, 0x10, 0xD0, 0x00]).mem 0 5).map (fun l => l.text) =
      ["addq %rax, %rbx", "nop"] := by decide

/-- The stage values of R29: a load sets valM and leaves valA 0, and HALT and INVALID set none. -/
theorem test_stageValues_mrmovq :
    (Instr.mrmovq 0 .noreg .rbx).stageValues (bytesAt 0 [0x10, 0x20]) = { valM := 0x2010 } := by decide
theorem test_stageValues_halt : Instr.halt.stageValues (withFlags true true true) = {} := by decide
theorem test_stageValues_invalid :
    (⟨.invalid, 0xF, .noreg, .noreg, 0, 0⟩ : Record).stageValues (withFlags true true true) = {} := by decide

/-! ## The statements' hypotheses are met -/

/-- A next state of which `f` holds exists where `nextIs` says so. -/
theorem exists_next {o : Host.Outcome State Fault Refusal} {f : State → Bool} (h : nextIs o f = true) :
    ∃ t, o = .next t ∧ f t = true := by
  cases o with
  | next t => exact ⟨t, rfl, h⟩
  | fault r => cases h
  | refused r => cases h

/-- The parameters with STRADDLE_FAULTS false. -/
def loose : Params := { defaultParams with straddleFaults := false }

theorem test_meets_DecodeOfEncodeGivesTheInstruction :
    (Instr.irmovq 0xFFFFFFFFFFFFFFFF .r14).wellFormed defaultParams = true ∧
    (Instr.pushq .noreg).wellFormed defaultParams = true := by decide

theorem test_meets_EncodeOfDecodedBytesGivesTheBytes :
    decode defaultParams [0x26, 0x0E, 0xFF] = .ok (.cmovg .rax .r14, [0xFF]) := rfl

theorem test_meets_FirstNibbleFixesTheLength :
    decode defaultParams [0x60, 0x01, 0x00] = .ok (.addq .rax .rcx, [0x00]) ∧
    decode defaultParams [0x63, 0xFF] = .ok (.xorq .noreg .noreg, []) ∧
    hiNibble (byteAt [0x60, 0x01, 0x00] 0) = hiNibble (byteAt [0x63, 0xFF] 0) := ⟨rfl, rfl, by decide⟩

/-- The three branches: the sum at 0x1000 passes, at 0x1002 fails, and an illegal byte that passes; the last address. -/
theorem test_meets_FetchStatusIsBoundThenLegality :
    (0x7FB : Word).toNat < defaultParams.memSize ∧ (0xFFF : Word).toNat < defaultParams.memSize ∧
    (fetch defaultParams (bytesAt 0x7FB [0x30, 0xF0]).mem 0x7FB).status = none ∧
    (fetch defaultParams (bytesAt 0x7FC [0x30, 0xF0]).mem 0x7FC).status = some .addressError ∧
    (fetch defaultParams (bytesAt 0x7FF [0x11]).mem 0x7FF).status = some .invalidInstruction ∧
    (fetch defaultParams (bytesAt 0xFFF [0x00]).mem 0xFFF).status = some .addressError := by decide

theorem test_meets_FetchBeyondCapacityIsAddressError : defaultParams.memSize ≤ (0x1000 : Word).toNat := by decide

theorem test_meets_UnrecognizedClassIsInvalid :
    (0xFFF : Word).toNat < defaultParams.memSize ∧
    13 ≤ (hiNibble ((bytesAt 0xFFF [0xD0]).mem.read (0xFFF : Word).toNat)).toNat := by decide

/-- `addq %rax, %rcx` at 0x7FF, whose sum is MEMSIZE (95_test_vectors.md 2.2). -/
theorem test_meets_StepRunsTheInstructionAtPc :
    (bytesAt 0x7FF [0x60, 0x01]).status = .running ∧ (Instr.addq .rax .rcx).wellFormed defaultParams = true ∧
    (bytesAt 0x7FF [0x60, 0x01]).pc.toNat < defaultParams.memSize ∧
    (∀ k, k < (encode (.addq .rax .rcx)).length →
      (bytesAt 0x7FF [0x60, 0x01]).mem.read (0x7FF + k) = (encode (.addq .rax .rcx)).getD k 0) ∧
    exceedsFetchBound defaultParams 0x7FF (encode (.addq .rax .rcx)).length = false := by decide

/-- Both statuses, and a pc at MEMSIZE. -/
theorem test_meets_InvalidRecordChangesOnlyTheStatus :
    (bytesAt 0x1A [0xD0]).status = .running ∧ (fetch defaultParams (bytesAt 0x1A [0xD0]).mem 0x1A).record.icode = .invalid ∧
    (bytesAt 0x800 [0x80]).status = .running ∧ (fetch defaultParams (bytesAt 0x800 [0x80]).mem 0x800).record.icode = .invalid ∧
    (fetch defaultParams [] 0x1000).record.icode = .invalid := by decide

theorem test_meets_EveryRunningStateSteps :
    State.reset.status = .running ∧ ({ State.reset with status := .addressError } : State).status ≠ .running := by decide

/-- A jump to MEMSIZE. -/
theorem test_meets_PcBeyondCapacityForcesAddressError :
    ∃ t, archStep (bytesAt 0 [0x70, 0x00, 0x10]) = .next t ∧
      decide ((bytesAt 0 [0x70, 0x00, 0x10]).params.memSize ≤ t.pc.toNat) = true := exists_next (by decide)

/-- A call that faults, a jump that leaves memory, and a step that ends otherwise. -/
theorem test_meets_FinalPcIsCorrectedAfterAddressError :
    (∃ t, step (bytesAt 0x100 [0x80, 0, 2]) = .next t ∧ decide (t.status = .addressError) = true) ∧
    (∃ t, step (bytesAt 0 [0x70, 0x00, 0x10]) = .next t ∧ decide (t.status = .addressError) = true) ∧
    (∃ t, step (bytesAt 0 [0x00]) = .next t ∧ decide (t.status ≠ .addressError) = true) :=
  ⟨exists_next (by decide), exists_next (by decide), exists_next (by decide)⟩

theorem test_meets_EveryStepCountsAndKeepsItsRecord :
    ∃ t, step (bytesAt 0 [0x10]) = .next t ∧ decide (t.count = 1) = true := exists_next (by decide)

/-- HALT, a store and a load that fault, one that does not, and an instruction with no access. -/
theorem test_meets_InstructionsSetOnlyTheirOwnStatus :
    (∃ t, exec .halt State.reset = .next t ∧ decide (t.status = .halted) = true) ∧
    (∃ t, exec (.pushq .rax) State.reset = .next t ∧ decide (t.status = .addressError) = true) ∧
    (∃ t, exec (.mrmovq 0xFF9 .noreg .rax) State.reset = .next t ∧ decide (t.status = .addressError) = true) ∧
    (∃ t, exec (.mrmovq 0xFF8 .noreg .rax) State.reset = .next t ∧ decide (t.status = .running) = true) ∧
    (∃ t, exec .nop State.reset = .next t ∧ decide (t.status = .running) = true) :=
  ⟨exists_next (by decide), exists_next (by decide), exists_next (by decide), exists_next (by decide),
    exists_next (by decide)⟩

/-- A jump to MEMSIZE, a push that faults, HALT, and an instruction after which the run goes on. -/
theorem test_meets_StepStatusFollowsThePriority :
    ((bytesAt 0 [0x70, 0x00, 0x10]).status = .running ∧
      (fetch defaultParams (bytesAt 0 [0x70, 0x00, 0x10]).mem 0).status = none ∧
      (fetch defaultParams (bytesAt 0 [0x70, 0x00, 0x10]).mem 0).record.instr? = some (.jmp 0x1000)) ∧
    (∃ t, archStep (bytesAt 0 [0x70, 0x00, 0x10]) = .next t ∧ decide (t.status = .addressError) = true) ∧
    (∃ t, archStep (bytesAt 0 [0xA0, 0x3F]) = .next t ∧ decide (t.status = .addressError) = true) ∧
    (∃ t, archStep (bytesAt 0 [0x00]) = .next t ∧ decide (t.status = .halted) = true) ∧
    (∃ t, archStep (bytesAt 0 [0x10]) = .next t ∧ decide (t.status = .running) = true) :=
  ⟨by decide, exists_next (by decide), exists_next (by decide), exists_next (by decide), exists_next (by decide)⟩

theorem test_meets_EveryStepKeepsTheInvariant :
    (bytesAt 0x7FE [0x60, 0x01]).Inv ∧
    ∃ t, step (bytesAt 0x7FE [0x60, 0x01]) = .next t ∧ decide (t.count = 1) = true :=
  ⟨by decide, exists_next (by decide)⟩

theorem test_meets_BootMeetsTheInvariant : (0xFFF : Word).toNat < defaultParams.memSize := by decide

/-- The first and the last byte of a piece that ends at MEMSIZE, and the byte before it. -/
theorem test_meets_LaterPieceWinsInTheImage :
    (0xFFE ≤ 0xFFE ∧ 0xFFE < 0xFFE + [1#8, 2#8].length ∧ 0xFFE < defaultParams.memSize) ∧
    (0xFFE ≤ 0xFFF ∧ 0xFFF < 0xFFE + [1#8, 2#8].length ∧ 0xFFF < defaultParams.memSize) ∧
    ¬(0xFFE ≤ 0xFFD ∧ 0xFFD < 0xFFE + [1#8, 2#8].length) := by decide

/-- A loop that ends, and so one of the two sides is met. -/
theorem test_meets_DriverLoopIsIteratedStep :
    (bytesAt 0 [0x10, 0x00]).status = .running ∧
    (runLoop 2 (bytesAt 0 [0x10, 0x00])).map (fun t => t.status) = some .halted ∧
    runLoop 1 (bytesAt 0 [0x10, 0x00]) = none := by decide

theorem test_meets_TracedLoopEndsAsTheSilentLoop :
    (runLoop 2 (bytesAt 0 [0x10, 0x00])).map (fun t => t.count) = some 2 := by decide

/-- A listed byte beyond the capacity against none. -/
theorem test_meets_NoByteBeyondCapacityMatters :
    AgreeBelowCapacity (bytesAt 0 [0x10]) { bytesAt 0 [0x10] with mem := [(0, 0x10#8), (0x1000, 7#8)] } ∧
    ∃ t, step (bytesAt 0 [0x10]) = .next t ∧ decide (t.pc = 1) = true := by
  refine ⟨⟨rfl, fun x hx => ?_⟩, exists_next (by decide)⟩
  have h1 : (bytesAt 0 [0x10]).mem = [(0, 0x10#8)] := rfl
  have h2 : x ≠ 0x1000 := fun h => by
    subst h
    exact absurd hx (by decide)
  rw [h1]
  simp [Memory.read, h2]

/-- `0x11` at the last address whose sum stays below MEMSIZE. -/
theorem test_meets_NopOnlyAdvancesPc :
    (0x1#4 : Nibble) ≠ 0 ∧ 2 * (0x7FF : Word).toNat + 1 < defaultParams.memSize ∧
    (bytesAt 0x7FF [0x11]).mem.read (0x7FF : Word).toNat = byteOfNibbles 0x1#4 0x1#4 := by decide

/-- The last address of `halt`, and the one-byte memory. -/
theorem test_meets_HaltEndsTheRunAfterItsByte :
    ((bytesAt 0x7FF []).status = .running ∧ (bytesAt 0x7FF []).mem.read 0x7FF = 0x00#8 ∧
      (bytesAt 0x7FF []).pc.toNat < defaultParams.memSize ∧ exceedsFetchBound defaultParams 0x7FF 1 = false) ∧
    ((bytesIn 1 0 []).status = .running ∧ (bytesIn 1 0 []).mem.read 0 = 0x00#8 ∧
      (bytesIn 1 0 []).pc.toNat < 1 ∧ exceedsFetchBound (bytesIn 1 0 []).params 0 1 = false) := by decide

theorem test_meets_TrapsOnlyAdvancePc :
    (Instr.iotrap0, 0xC0#8) ∈ trapRows ∧ (Instr.iotrap5, 0xC5#8) ∈ trapRows := by decide

/-- `cmovg` at a state where it moves, and at one where it does not. -/
theorem test_meets_ConditionalMovesMoveWhenTheConditionHolds :
    let s := withFlags false false false
    let t := withFlags true false false
    (Instr.cmovg .rax .rbx, 0x26#8, true) ∈ moveRows .rax .rbx s.zeroFlag s.signFlag s.overflowFlag ∧
    (Instr.cmovg .rax .rbx, 0x26#8, false) ∈ moveRows .rax .rbx t.zeroFlag t.signFlag t.overflowFlag := by decide

/-- `jg`, taken and not. -/
theorem test_meets_JumpsGoWhenTheConditionHolds :
    let s := withFlags false true true
    let t := withFlags false true false
    (Instr.jg 0x100, 0x76#8, true) ∈ jumpRows 0x100 s.zeroFlag s.signFlag s.overflowFlag ∧
    (Instr.jg 0x100, 0x76#8, false) ∈ jumpRows 0x100 t.zeroFlag t.signFlag t.overflowFlag := by decide

/-- `addq` of 1 to INT64_MAX (95_test_vectors.md E2), and `subq` with `rb` = 15. -/
theorem test_meets_AddAndSubtractResultsAndFlags :
    let s := withRegs 1 0x7FFFFFFFFFFFFFFF 0
    (Instr.addq .rax .rbx, 0x60#8, (0x8000000000000000 : Word), true) ∈ addSubRows .rax .rbx (s.reg .rax) (s.reg .rbx) ∧
    (Instr.subq .rax .noreg, 0x61#8, (0xFFFFFFFFFFFFFFFF : Word), false) ∈
      addSubRows .rax .noreg (s.reg .rax) (s.reg .noreg) := by decide

theorem test_meets_LogicResultsAndFlags :
    let s := withRegs 7 0 0
    (Instr.xorq .rax .rax, 0x63#8, (0 : Word)) ∈ logicRows .rax .rax (s.reg .rax) (s.reg .rax) := by decide

/-- The LSU check at the boundary, under both readings of a straddling access. -/
theorem test_meets_StoreWritesEightBytesOrFaults :
    lsuFault defaultParams (0xFF8 + State.reset.reg .noreg) = false ∧
    lsuFault defaultParams (0xFF9 + State.reset.reg .noreg) = true ∧
    lsuFault loose (0xFFF + State.reset.reg .noreg) = false ∧
    lsuFault loose (0x1000 + State.reset.reg .noreg) = true := by decide

theorem test_meets_LoadReadsEightBytesOrFaults :
    lsuFault defaultParams (0x7F8 + (withRegs 0 0x800 0).reg .rbx) = false ∧
    lsuFault defaultParams (0x7F9 + (withRegs 0 0x800 0).reg .rbx) = true ∧
    lsuFault loose (0x7FF + (withRegs 0 0x800 0).reg .rbx) = false := by decide

/-- `%rsp` at MEMSIZE and one beyond it, at 8, and at its reset value. -/
theorem test_meets_CallPushesTheReturnAddressOrFaults :
    lsuFault defaultParams ((withRegs 0 0 0x1000).reg .rsp - 8) = false ∧
    lsuFault defaultParams ((withRegs 0 0 0x1001).reg .rsp - 8) = true ∧
    lsuFault defaultParams ((withRegs 0 0 8).reg .rsp - 8) = false ∧
    lsuFault defaultParams (State.reset.reg .rsp - 8) = true := by decide

theorem test_meets_PushStoresTheOldValueOrFaults :
    lsuFault defaultParams ((withRegs 0 0 0x1000).reg .rsp - 8) = false ∧
    lsuFault loose ((withRegs 0 0 0x1007).reg .rsp - 8) = false ∧
    lsuFault loose ((withRegs 0 0 0x1008).reg .rsp - 8) = true := by decide

theorem test_meets_ReturnPopsThePcOrFaults :
    lsuFault defaultParams ((withRegs 0 0 0xFF8).reg .rsp) = false ∧
    lsuFault defaultParams ((withRegs 0 0 0xFF9).reg .rsp) = true ∧
    lsuFault defaultParams ((withRegs 0 0 0x1000).reg .rsp) = true := by decide

theorem test_meets_PopLoadsAndAdvancesTheStackOrFaults :
    lsuFault defaultParams ((withRegs 0 0 0).reg .rsp) = false ∧
    lsuFault loose ((withRegs 0 0 0xFFF).reg .rsp) = false ∧
    lsuFault loose ((withRegs 0 0 0x1000).reg .rsp) = true := by decide

theorem test_meets_OnlyOpqWritesTheFlags :
    (∃ t, exec (.popq .rax) State.reset = .next t ∧ decide (t.pc = 2) = true) ∧ (Instr.popq .rax).isOpq = false :=
  ⟨exists_next (by decide), by decide⟩

theorem test_meets_OnlyDestinationsAreWritten :
    ∃ t, exec (.popq .rax) (withRegs 5 6 0x800) = .next t ∧ decide (t.reg .rsp = 0x808) = true := exists_next (by decide)

/-- A form that stores, and one that does not. -/
theorem test_meets_OnlyTheStoredBytesChange :
    ((Instr.pushq .rbx).storeAddress? (withRegs 0 7 0x1000) = some 0xFF8 ∧
      ∃ t, exec (.pushq .rbx) (withRegs 0 7 0x1000) = .next t ∧ decide (t.mem.read 0xFF8 = 7) = true) ∧
    ((Instr.popq .rbx).storeAddress? (withRegs 0 7 0x800) = none ∧
      ∃ t, exec (.popq .rbx) (withRegs 0 7 0x800) = .next t ∧ decide (t.mem = []) = true) :=
  ⟨⟨by decide, exists_next (by decide)⟩, ⟨by decide, exists_next (by decide)⟩⟩

/-- Each clause: a straight-line class, a store, a load, CALL, and RET both ways. -/
theorem test_meets_NextPcOutsideJumpsIsTheSequencers :
    (∃ t, exec .nop State.reset = .next t ∧ decide (t.pc = 1) = true) ∧
    ((Instr.pushq .rbx).storeAddress? State.reset = some 0xFFFFFFFFFFFFFFF8 ∧
      ∃ t, exec (.pushq .rbx) State.reset = .next t ∧ decide (t.pc = 0) = true) ∧
    ((Instr.mrmovq 0xFF8 .noreg .rbx).loadAddress? State.reset = some 0xFF8 ∧
      ∃ t, exec (.mrmovq 0xFF8 .noreg .rbx) State.reset = .next t ∧ decide (t.pc = 10) = true) ∧
    (∃ t, exec (.call 0x200) State.reset = .next t ∧ decide (t.pc = 0x200) = true) ∧
    (lsuFault defaultParams ((withRegs 0 0 0xFF9).reg .rsp) = true ∧
      ∃ t, exec .ret (withRegs 0 0 0xFF9) = .next t ∧ decide (t.pc = 0) = true) ∧
    (lsuFault defaultParams ((withRegs 0 0 0xFF8).reg .rsp) = false ∧
      ∃ t, exec .ret (withRegs 0 0 0xFF8) = .next t ∧ decide (t.reg .rsp = 0x1000) = true) :=
  ⟨exists_next (by decide), ⟨by decide, exists_next (by decide)⟩, ⟨by decide, exists_next (by decide)⟩,
    exists_next (by decide), ⟨by decide, exists_next (by decide)⟩, ⟨by decide, exists_next (by decide)⟩⟩

theorem test_meets_OverflowFlagIsSignedOverflow :
    (∃ t, exec (.addq .rax .rbx) (withRegs 1 0x7FFFFFFFFFFFFFFF 0) = .next t ∧ t.overflowFlag = true) ∧
    (∃ u, exec (.subq .rax .rbx) (withRegs 1 0x7FFFFFFFFFFFFFFF 0) = .next u ∧ (!u.overflowFlag) = true) :=
  ⟨exists_next (by decide), exists_next (by decide)⟩

theorem test_meets_ConditionsCompareAfterSubtract :
    ∃ t, exec (.subq .rax .rbx) (withRegs 5 3 0) = .next t ∧ t.condition .l = true := exists_next (by decide)

/-- The highest and the lowest stack pointer that fit. -/
theorem test_meets_PushThenPopMovesTheValue :
    RegId.rcx ≠ .rsp ∧ RegId.rcx ≠ .noreg ∧
    ((withRegs 0 7 0x1000).reg .rsp - 8).toNat + 8 ≤ defaultParams.memSize ∧
    ((withRegs 0 7 8).reg .rsp - 8).toNat + 8 ≤ defaultParams.memSize := by decide

theorem test_meets_CallThenReturnComesBack :
    ((withRegs 0 0 0x1000).reg .rsp - 8).toNat + 8 ≤ defaultParams.memSize ∧
    ((withRegs 0 0 8).reg .rsp - 8).toNat + 8 ≤ defaultParams.memSize := by decide

theorem test_meets_WriteThenReadGivesTheWord : (0xFF8 : Word).toNat + 8 ≤ State.reset.params.memSize := by decide

/-- The last of eight `nop`s at the highest place that passes the bound. -/
theorem test_meets_StoredCodeIsFetched :
    let s := withRegs 0x1010101010101010 0 0
    s.reg .rax = 0x1010101010101010#64 ∧ (7 : Nat) < 8 ∧ 2 * ((0x7F7 + s.reg .noreg).toNat + 8) < s.params.memSize ∧
    (0x7F7 + s.reg .noreg).toNat + 8 ≤ 2 ^ 64 := by decide

theorem test_meets_StackPointerBoundsForStackUse :
    (8 ≤ ((withRegs 0 0 8).reg .rsp).toNat ∧ ((withRegs 0 0 8).reg .rsp).toNat ≤ defaultParams.memSize) ∧
    (8 ≤ ((withRegs 0 0 0x1000).reg .rsp).toNat ∧ ((withRegs 0 0 0x1000).reg .rsp).toNat ≤ defaultParams.memSize) ∧
    ((withRegs 0 0 0xFF8).reg .rsp).toNat + 8 ≤ defaultParams.memSize ∧
    (State.reset.reg .rsp = 0 ∧ defaultParams.memSize ≤ 2 ^ 64 - 8) := by decide

/-- Each clause: a class whose rule does not set the value, INVALID among them. -/
theorem test_meets_UnsetStageValuesAreZero :
    (⟨.invalid, 0xF, .noreg, .noreg, 0, 0⟩ : Record).icode ∉ [Icode.cmov, .jump] ∧
    (⟨.call, 0, .noreg, .noreg, 0x200, 9⟩ : Record).icode ∉ [Icode.cmov, .rmmovq, .opq, .ret, .pushq, .popq] ∧
    (⟨.irmovq, 0, .noreg, .rdx, 5, 10⟩ : Record).icode ∉
      [Icode.rmmovq, .mrmovq, .opq, .call, .ret, .pushq, .popq] ∧
    (⟨.jump, 0, .noreg, .noreg, 0x200, 9⟩ : Record).icode ∉
      [Icode.cmov, .irmovq, .rmmovq, .mrmovq, .opq, .call, .ret, .pushq, .popq] ∧
    (⟨.halt, 0, .noreg, .noreg, 0, 1⟩ : Record).icode ∉ [Icode.mrmovq, .ret, .popq] := by decide

/-- A walk that goes on, and one that stops at once. -/
theorem test_meets_CodeWalkEmitsOneLineAndGoesOn :
    defaultParams.memSize ≤ 2 ^ 64 ∧
    (fetch defaultParams (bytesAt 0x7FF [0x60, 0x01]).mem 0x7FF).record.icode ≠ .invalid ∧ 0 < 1 ∧
    (fetch defaultParams (bytesAt 0x7FF [0x11]).mem 0x7FF).record.icode = .invalid := by decide

/-- An instruction that ends past the region is walked whole (47_disassembler.md R220). -/
theorem test_meets_WalkedLinesAreEncodedInstructions :
    defaultParams.memSize ≤ 2 ^ 64 ∧
    (⟨0x7FF, [0x60, 0x01], "addq %rax, %rcx"⟩ : Line) ∈
      disassembleCode defaultParams (bytesAt 0x7FF [0x60, 0x01]).mem 0x7FF 1 := by decide

end Sys2Proof.Tests
end

section
/-! The memory image a boot hands the core (20_memory.md R47): it starts zero-filled and each piece is written over
the pieces before it. -/

namespace Sys2Proof.Machine

@[simp] theorem State.boot_mem (p : Params) (pieces : List (Nat × List Byte)) (entry : Word) :
    (State.boot p pieces entry).mem = loadPieces p.memSize pieces := rfl

theorem read_loadPieces_nil (cap x : Nat) : (loadPieces cap []).read x = 0 := rfl

/-- The last piece is written into the image of the earlier ones. -/
theorem loadPieces_append_singleton (cap : Nat) (pieces : List (Nat × List Byte)) (a : Nat) (bs : List Byte) :
    loadPieces cap (pieces ++ [(a, bs)]) = (loadPieces cap pieces).writeBytes cap a bs := by
  simp only [loadPieces, List.foldl_append, List.foldl_cons, List.foldl_nil]

theorem read_loadPieces_of_covered {cap a x : Nat} {bs : List Byte} (pieces : List (Nat × List Byte))
    (ha : a ≤ x) (hbs : x < a + bs.length) (hcap : x < cap) :
    (loadPieces cap (pieces ++ [(a, bs)])).read x = bs.getD (x - a) 0 := by
  rw [loadPieces_append_singleton, Memory.read_writeBytes, if_pos ⟨ha, hbs, hcap⟩]

theorem read_loadPieces_of_not_covered {a x : Nat} {bs : List Byte} (cap : Nat) (pieces : List (Nat × List Byte))
    (h : ¬(a ≤ x ∧ x < a + bs.length)) :
    (loadPieces cap (pieces ++ [(a, bs)])).read x = (loadPieces cap pieces).read x := by
  rw [loadPieces_append_singleton, Memory.read_writeBytes,
    if_neg fun ⟨ha, hbs, _⟩ => h ⟨ha, hbs⟩]

end Sys2Proof.Machine

namespace Sys2Proof

open Sys2Proof.Machine

/-- Settles O20: a boot's memory is the loaded image, and reading it after the last piece is reading after one write
of a run of bytes, split by whether the piece covers the address. -/
theorem laterPieceWinsInTheImage : Obligations.LaterPieceWinsInTheImage := by
  intro p entry pieces a bs x
  simp only [State.boot_mem]
  refine ⟨?zeroFilled, ?covered, ?notCovered⟩
  case zeroFilled => exact read_loadPieces_nil p.memSize x
  case covered => exact read_loadPieces_of_covered pieces
  case notCovered => exact read_loadPieces_of_not_covered p.memSize pieces

end Sys2Proof
end

section
/-! What an accepted byte sequence says of the instruction it decodes to: its first nibble names the class, and the
class's length is what the decoder takes off (30_encoding.md R60, R63, R67). -/

namespace Sys2Proof

/-- The four formats' lengths, F1, F2, F9 and F10 (30_encoding.md R61). -/
theorem Icode.length_mem_formats {c : Icode} (h : c ≠ .invalid) : c.length ∈ [1, 2, 9, 10] := by
  revert h; cases c <;> decide

/-- A record's instruction is of the record's class. -/
theorem Record.icode_of_instr? {r : Record} {i : Instr} (h : r.instr? = some i) : i.icode = r.icode := by
  unfold Record.instr? at h
  split at h
  all_goals cases h
  all_goals exact Eq.symm ‹r.icode = _›

/-- An accepted sequence passed every check of 30_encoding.md R67 that needs neither pc nor capacity. -/
theorem decode_ok_inv {p : Params} {bs rest : List Byte} {i : Instr} (h : decode p bs = .ok (i, rest)) :
    ∃ r, rawRecord 0 bs = some r ∧ r.icode.length ≤ bs.length ∧ r.valid p = true ∧ r.instr? = some i ∧
      rest = bs.drop r.icode.length := by
  unfold decode at h
  split at h
  · cases h
  split at h
  · cases h
  next r hraw =>
    split at h
    · cases h
    next hlen =>
    split at h
    · cases h
    next hfun =>
    split at h
    · cases h
    next hregs =>
    split at h
    next j hj =>
      cases h
      have hvalid : r.valid p = true := by
        simp only [Bool.not_eq_true', Bool.not_eq_false] at hfun hregs
        rw [Record.valid, hfun, hregs, Bool.and_self]
      exact ⟨r, hraw, Nat.le_of_not_lt hlen, hvalid, hj, rfl⟩
    · cases h

/-- The class table reads an accepted sequence's first nibble as its instruction's class (30_encoding.md R60). -/
theorem ofNibble_of_decode {p : Params} {bs rest : List Byte} {i : Instr} (h : decode p bs = .ok (i, rest)) :
    Icode.ofNibble (hiNibble (byteAt bs 0)) = some i.icode := by
  obtain ⟨r, hraw, -, -, hi, -⟩ := decode_ok_inv h
  rw [Record.icode_of_instr? hi]
  exact (rawRecord_fields hraw).1

/-- The decoder takes exactly the class's length off an accepted sequence (30_encoding.md R63). -/
theorem length_of_decode {p : Params} {bs rest : List Byte} {i : Instr} (h : decode p bs = .ok (i, rest)) :
    bs.length = i.icode.length + rest.length := by
  obtain ⟨r, -, hlen, -, hi, rfl⟩ := decode_ok_inv h
  rw [Record.icode_of_instr? hi, List.length_drop, Nat.add_sub_cancel' hlen]

/-- Settles O4: each sequence's class is the class table's answer at its first nibble, so equal nibbles give equal
classes, and the length is the class's. -/
theorem firstNibbleFixesTheLength : Obligations.FirstNibbleFixesTheLength := by
  intro p bs bs' rest rest' i i' h h' hnibble
  have hclass := ofNibble_of_decode h
  have hicode : i.icode = i'.icode := by
    apply Option.some.inj
    calc some i.icode = Icode.ofNibble (hiNibble (byteAt bs 0)) := hclass.symm
      _ = Icode.ofNibble (hiNibble (byteAt bs' 0)) := by rw [hnibble]
      _ = some i'.icode := ofNibble_of_decode h'
  have hne : i.icode ≠ .invalid := fun hinv => Icode.ofNibble_ne_invalid _ (hinv ▸ hclass)
  exact ⟨hicode, i.icode.length, Icode.length_mem_formats hne, length_of_decode h, hicode ▸ length_of_decode h'⟩

end Sys2Proof
end

section
/-! A recognized class byte whose function code is out of the class's range: it extracts to a record of its class, and
where that class passes the fetch bound the fetch is INVALID with INVALID_INSTRUCTION (30_encoding.md R66, R80). -/

namespace Sys2Proof

/-- A first nibble in the class table extracts to a record of that class. -/
theorem exists_rawRecord_of_ofNibble {bs : List Byte} {c : Icode} (pc : Word)
    (h : Icode.ofNibble (hiNibble (byteAt bs 0)) = some c) :
    ∃ r, rawRecord pc bs = some r ∧ r.icode = c ∧ r.ifun = loNibble (byteAt bs 0) := by
  unfold rawRecord
  rw [h]
  exact ⟨_, rfl, rfl, rfl⟩

/-- A record whose function code reaches its class's bad sentinel is not valid. -/
theorem Record.valid_eq_false_of_badSentinel_le {r : Record} (p : Params)
    (h : r.icode.badSentinel ≤ r.ifun.toNat) : r.valid p = false := by
  have hfun : r.functionOk = false := decide_eq_false (Nat.not_lt.2 h)
  rw [Record.valid, hfun, Bool.false_and]

end Sys2Proof

namespace Sys2Proof.Machine

/-- A sum strictly below the capacity passes the bound under both readings of FETCH_BOUND_INCLUSIVE (D8). -/
theorem exceedsFetchBound_eq_false_of_lt {p : Params} {pc : Word} {n : Nat}
    (h : pc.toNat + (pc.toNat + n) < p.memSize) : exceedsFetchBound p pc n = false := by
  rw [Bool.eq_false_iff, ne_eq, exceedsFetchBound_eq_true_iff]
  omega

/-- Byte 0 of the window at an address that exists is the memory's. -/
theorem byteAt_fetchWindow_zero {p : Params} {m : Memory} {a : Nat} (h : a < p.memSize) :
    byteAt (fetchWindow p m a) 0 = m.read a :=
  (byteAt_fetchWindow p m a 0 (by decide)).trans (fetchByte_of_lt h)

/-- Below the capacity, an extracted record goes to the two post-checks (30_encoding.md R80, R81). -/
theorem fetch_of_rawRecord {p : Params} {m : Memory} {pc : Word} {r : Record} (hlt : pc.toNat < p.memSize)
    (hraw : rawRecord pc (fetchWindow p m pc.toNat) = some r) :
    fetch p m pc = checkBound p pc r.icode (checkValid p r) := by
  rw [fetch, if_neg (Nat.not_le.2 hlt), hraw]

/-- A fetch that passes the bound of its class and has a function code out of the class's range is INVALID with
INVALID_INSTRUCTION (30_encoding.md R66, R80). -/
theorem fetch_of_badFunctionCode {p : Params} {m : Memory} {pc : Word} {c : Icode} (hlt : pc.toNat < p.memSize)
    (hclass : Icode.ofNibble (hiNibble (m.read pc.toNat)) = some c)
    (hbound : exceedsFetchBound p pc c.length = false)
    (hcode : c.badSentinel ≤ (loNibble (m.read pc.toNat)).toNat) :
    (fetch p m pc).record.icode = .invalid ∧ (fetch p m pc).status = some .invalidInstruction := by
  rw [← byteAt_fetchWindow_zero hlt] at hclass hcode
  obtain ⟨r, hraw, rfl, hifun⟩ := exists_rawRecord_of_ofNibble pc hclass
  have hvalid : r.valid p = false := Record.valid_eq_false_of_badSentinel_le p (hifun ▸ hcode)
  rw [fetch_of_rawRecord hlt hraw, checkBound, hbound, checkValid, hvalid]
  exact ⟨rfl, rfl⟩

end Sys2Proof.Machine

namespace Sys2Proof

open Sys2Proof.Machine

/-- Settles O26: `nop` is its one-byte encoding and its pc write, and since 1 is NOP's bad sentinel every other function
code of its class is out of range. -/
theorem nopOnlyAdvancesPc : Obligations.NopOnlyAdvancesPc := by
  refine ⟨?encoding, execNop_eq, ?otherFunctionCodes⟩
  case encoding => decide
  case otherFunctionCodes =>
    intro p m pc f hf hbound hbyte
    have hpasses : exceedsFetchBound p pc Icode.nop.length = false :=
      exceedsFetchBound_eq_false_of_lt (by simp only [Icode.length]; omega)
    have hcode : Icode.nop.badSentinel ≤ f.toNat :=
      Nat.one_le_iff_ne_zero.2 fun h => hf (BitVec.eq_of_toNat_eq h)
    refine fetch_of_badFunctionCode (by omega) ?_ hpasses ?_
    · rw [hbyte, hiNibble_byteOfNibbles]
      decide
    · rw [hbyte, loNibble_byteOfNibbles]
      exact hcode

end Sys2Proof
end

section
/-! The register moves (42_moves.md R130 to R138): what a register write and a pc write leave unchanged, and the one
datapath that all seven rows of the CMOV class share. -/

namespace Sys2Proof.Machine

/-- Everything but the registers and the pc is unchanged. -/
def SameButRegsPc (s t : State) : Prop :=
  SameFlags s t ∧ SameMemory s t ∧ SameDriver s t ∧ t.status = s.status ∧ t.draws = s.draws

theorem SameButRegsPc.refl (s : State) : SameButRegsPc s s :=
  ⟨⟨rfl, rfl, rfl⟩, fun _ => rfl, ⟨rfl, rfl, rfl⟩, rfl, rfl⟩

theorem SameButRegsPc.setReg {s t : State} (h : SameButRegsPc s t) (d : RegId) (v : Word) :
    SameButRegsPc s (t.setReg d v) := h

theorem SameButRegsPc.setPc {s t : State} (h : SameButRegsPc s t) (a : Word) : SameButRegsPc s (t.setPc a) := h

/-- Among the ids that name storage, a register write changes its destination alone, also where that is id 15. -/
theorem State.reg_setReg_of_ne_noreg (s : State) (d : RegId) (v : Word) {r : RegId} (hr : r ≠ .noreg) :
    (s.setReg d v).reg r = if r = d then v else s.reg r := by
  rw [State.reg_setReg]
  exact if_congr (and_iff_left_of_imp fun hd => hd ▸ hr) rfl rfl

/-- Every row of the CMOV class runs the class's datapath on a condition whose value is the row's, and its bytes are
the row's (42_moves.md R130). -/
theorem exec_eq_cmovStep_of_mem_moveRows {ra rb : RegId} {s : State} {i : Instr} {b : Byte} {c : Bool}
    (h : (i, b, c) ∈ moveRows ra rb s.zeroFlag s.signFlag s.overflowFlag) :
    encode i = [b, regByte ra rb] ∧ ∃ k, exec i s = cmovStep k ra rb s ∧ s.condition k = c := by
  simp only [moveRows, List.mem_cons, List.not_mem_nil, or_false, Prod.mk.injEq] at h
  obtain ⟨rfl, rfl, rfl⟩ | ⟨rfl, rfl, rfl⟩ | ⟨rfl, rfl, rfl⟩ | ⟨rfl, rfl, rfl⟩ | ⟨rfl, rfl, rfl⟩ | ⟨rfl, rfl, rfl⟩ |
    ⟨rfl, rfl, rfl⟩ := h
  · exact ⟨rfl, .always, rfl, rfl⟩
  · exact ⟨rfl, .le, rfl, rfl⟩
  · exact ⟨rfl, .l, rfl, rfl⟩
  · exact ⟨rfl, .e, rfl, rfl⟩
  · exact ⟨rfl, .ne, rfl, rfl⟩
  · exact ⟨rfl, .ge, rfl, rfl⟩
  · exact ⟨rfl, .g, rfl, rfl⟩

/-- The datapath of the CMOV class answers one next state, which differs in pc and, exactly where the condition holds,
in the destination (42_moves.md R130). -/
theorem cmovStep_result (k : Cond) (ra rb : RegId) (s : State) :
    ∃ t, cmovStep k ra rb s = .next t ∧ t.pc = s.pc + 2 ∧
      (∀ r, r ≠ .noreg → t.reg r = if s.condition k = true ∧ r = rb then s.reg ra else s.reg r) ∧
      SameButRegsPc s t := by
  refine ⟨_, cmovStep_eq k ra rb s, State.setPc_pc .., ?_⟩
  cases s.condition k with
  | true =>
    refine ⟨fun r hr => ?_, ((SameButRegsPc.refl s).setReg _ _).setPc _⟩
    simp only [if_true, State.reg_setPc, State.reg_setReg_of_ne_noreg s _ _ hr, true_and]
  | false => exact ⟨fun r _ => by simp, (SameButRegsPc.refl s).setPc _⟩

end Sys2Proof.Machine

namespace Sys2Proof

open Sys2Proof.Machine

/-- Settles O28: each of the seven rows is the class's datapath on its own condition, and the datapath's one next state
is the row's result and frame. -/
theorem conditionalMovesMoveWhenTheConditionHolds : Obligations.ConditionalMovesMoveWhenTheConditionHolds := by
  intro ra rb s i b c hrow
  obtain ⟨hbytes, k, hexec, rfl⟩ := exec_eq_cmovStep_of_mem_moveRows hrow
  exact ⟨hbytes, hexec ▸ cmovStep_result k ra rb s⟩

/-- Settles O29: `irmovq` writes its immediate to one register and advances pc by its length, and neither write changes
anything else. -/
theorem immediateMoveLoadsTheWholeWord : Obligations.ImmediateMoveLoadsTheWholeWord := by
  intro imm rb s
  have hframe : SameButRegsPc s ((s.setReg rb imm).setPc (s.pc + 10)) :=
    ((SameButRegsPc.refl s).setReg rb imm).setPc _
  refine ⟨rfl, _, execIrmovq_eq imm rb s, State.setPc_pc .., fun r hr => ?_, hframe⟩
  rw [State.reg_setPc, State.reg_setReg_of_ne_noreg s rb imm hr]

end Sys2Proof
end

section
/-! The OPQ class (43_alu.md R150 to R155): the one datapath that its four instructions share, and the two of them
whose overflow flag is the signed overflow of the operation. -/

namespace Sys2Proof.Machine

/-- The datapath of the OPQ class answers one next state, with the ALU's result in the destination and in the three
flags, and no other change but the pc's (43_alu.md R150, R155). -/
theorem opqStep_result (op : AluOp) (ra rb : RegId) (s : State) :
    ∃ t, opqStep op ra rb s = .next t ∧ t.pc = s.pc + 2 ∧
      (∀ r, r ≠ .noreg → t.reg r = if r = rb then aluResult op (s.reg ra) (s.reg rb) else s.reg r) ∧
      t.signFlag = (aluResult op (s.reg ra) (s.reg rb)).msb ∧
      t.zeroFlag = decide (aluResult op (s.reg ra) (s.reg rb) = 0) ∧
      t.overflowFlag = aluOverflow s.params.logicClearsOf op (s.reg ra) (s.reg rb) s.overflowFlag ∧
      SameMemory s t ∧ SameDriver s t ∧ t.status = s.status ∧ t.draws = s.draws := by
  refine ⟨_, opqStep_eq op ra rb s, State.setPc_pc .., ?registers, ?sign, ?zero, ?overflow, ?frame⟩
  case registers =>
    intro r hr
    rw [State.reg_setPc, State.reg_setReg_of_ne_noreg _ _ _ hr, State.reg_setAluFlags]
  case sign => simp only [State.setPc_signFlag, State.setReg_signFlag, State.setAluFlags_signFlag]
  case zero => simp only [State.setPc_zeroFlag, State.setReg_zeroFlag, State.setAluFlags_zeroFlag, beq_eq_decide]
  case overflow => simp only [State.setPc_overflowFlag, State.setReg_overflowFlag, State.setAluFlags_overflowFlag]
  case frame => exact ⟨fun _ => rfl, ⟨rfl, rfl, rfl⟩, rfl, rfl⟩

/-- The rows of `addq` and `subq` run the datapath of the OPQ class on an operation whose result and overflow flag are
the row's, whatever LOGIC_CLEARS_OF and the old overflow flag are, and their bytes are the row's (43_alu.md R151, R152,
R155). -/
theorem exec_eq_opqStep_of_mem_addSubRows {ra rb : RegId} {s : State} {i : Instr} {b : Byte} {res : Word} {ov : Bool}
    (h : (i, b, res, ov) ∈ addSubRows ra rb (s.reg ra) (s.reg rb)) :
    encode i = [b, regByte ra rb] ∧
    ∃ op, exec i s = opqStep op ra rb s ∧ aluResult op (s.reg ra) (s.reg rb) = res ∧
      ∀ clears old, aluOverflow clears op (s.reg ra) (s.reg rb) old = ov := by
  simp only [addSubRows, List.mem_cons, List.not_mem_nil, or_false, Prod.mk.injEq] at h
  obtain ⟨rfl, rfl, rfl, rfl⟩ | ⟨rfl, rfl, rfl, rfl⟩ := h
  · exact ⟨rfl, .add, rfl, rfl, fun _ _ => rfl⟩
  · exact ⟨rfl, .sub, rfl, rfl, fun _ _ => rfl⟩

end Sys2Proof.Machine

namespace Sys2Proof

open Sys2Proof.Machine

/-- Settles O32: both rows are the class's datapath on their own operation, whose result and overflow flag the row
states, and the datapath's one next state is the row's result, flags and frame. -/
theorem addAndSubtractResultsAndFlags : Obligations.AddAndSubtractResultsAndFlags := by
  intro ra rb s i b res ov hrow
  obtain ⟨hbytes, op, hexec, rfl, hov⟩ := exec_eq_opqStep_of_mem_addSubRows hrow
  refine ⟨hbytes, ?_⟩
  rw [hexec, ← hov s.params.logicClearsOf s.overflowFlag]
  exact opqStep_result op ra rb s

end Sys2Proof
end

section
/-! The JUMP class (44_control_transfer.md R170 to R177): the one datapath that its seven instructions share, each with
its own condition on the flags. -/

namespace Sys2Proof.Machine

/-- Every row of the JUMP class runs the class's datapath on a condition whose value is the row's, and its bytes are
the row's (44_control_transfer.md R170). -/
theorem exec_eq_jumpStep_of_mem_jumpRows {dest : Word} {s : State} {i : Instr} {b : Byte} {c : Bool}
    (h : (i, b, c) ∈ jumpRows dest s.zeroFlag s.signFlag s.overflowFlag) :
    encode i = b :: wordBytes dest ∧ ∃ k, exec i s = jumpStep k dest s ∧ s.condition k = c := by
  simp only [jumpRows, List.mem_cons, List.not_mem_nil, or_false, Prod.mk.injEq] at h
  obtain ⟨rfl, rfl, rfl⟩ | ⟨rfl, rfl, rfl⟩ | ⟨rfl, rfl, rfl⟩ | ⟨rfl, rfl, rfl⟩ | ⟨rfl, rfl, rfl⟩ | ⟨rfl, rfl, rfl⟩ |
    ⟨rfl, rfl, rfl⟩ := h
  · exact ⟨rfl, .always, rfl, rfl⟩
  · exact ⟨rfl, .le, rfl, rfl⟩
  · exact ⟨rfl, .l, rfl, rfl⟩
  · exact ⟨rfl, .e, rfl, rfl⟩
  · exact ⟨rfl, .ne, rfl, rfl⟩
  · exact ⟨rfl, .ge, rfl, rfl⟩
  · exact ⟨rfl, .g, rfl, rfl⟩

end Sys2Proof.Machine

namespace Sys2Proof

open Sys2Proof.Machine

/-- Settles O34: each of the seven rows is the class's datapath on its own condition, and the datapath is one pc
write, of the destination or of pc + 9. -/
theorem jumpsGoWhenTheConditionHolds : Obligations.JumpsGoWhenTheConditionHolds := by
  intro dest s i b c hrow
  obtain ⟨hbytes, k, hexec, rfl⟩ := exec_eq_jumpStep_of_mem_jumpRows hrow
  exact ⟨hbytes, hexec.trans (jumpStep_eq k dest s)⟩

end Sys2Proof
end

section
/-! The two halves of the round trip between bytes and instructions (30_encoding.md R60 to R78, R84). A record has a
byte image; extraction inverts it, and the image of a valid record is the encoding of its instruction. -/

namespace Sys2Proof

/-- The class code of a record, the high nibble of its first byte (30_encoding.md R63). -/
def Icode.nibble : Icode → Nibble
  | .halt => 0x0#4 | .nop => 0x1#4 | .cmov => 0x2#4 | .irmovq => 0x3#4
  | .rmmovq => 0x4#4 | .mrmovq => 0x5#4 | .opq => 0x6#4 | .jump => 0x7#4
  | .call => 0x8#4 | .ret => 0x9#4 | .pushq => 0xA#4 | .popq => 0xB#4
  | .iotrap => 0xC#4 | .invalid => 0xF#4

/-- The bytes a record stands for, in the format of its class (30_encoding.md R61, R65). -/
def Record.bytes (r : Record) : List Byte :=
  byteOfNibbles r.icode.nibble r.ifun ::
    ((if r.icode.hasRegByte then [regByte r.ra r.rb] else []) ++
      (if r.icode.valCOffset.isSome then wordBytes r.valC else []))

/-- The fields that the class's format lacks hold their fixed values, and `valP` is the address after the instruction
at `pc` (30_encoding.md R62). -/
structure Record.Canonical (pc : Word) (r : Record) : Prop where
  icode : r.icode ≠ .invalid
  ra : r.icode.hasRegByte = false → r.ra = .noreg
  rb : r.icode.hasRegByte = false → r.rb = .noreg
  valC : r.icode.valCOffset = none → r.valC = 0
  valP : r.valP = pc + BitVec.ofNat 64 r.icode.length

/-- The function code of an instruction in its class (30_encoding.md R64). -/
def Instr.ifun : Instr → Nibble
  | .halt | .nop | .rrmovq _ _ | .irmovq _ _ | .rmmovq _ _ _ | .mrmovq _ _ _ | .addq _ _ | .jmp _ | .call _ | .ret
  | .pushq _ | .popq _ | .iotrap0 => 0
  | .cmovle _ _ | .subq _ _ | .jle _ | .iotrap1 => 1
  | .cmovl _ _ | .andq _ _ | .jl _ | .iotrap2 => 2
  | .cmove _ _ | .xorq _ _ | .je _ | .iotrap3 => 3
  | .cmovne _ _ | .jne _ | .iotrap4 => 4
  | .cmovge _ _ | .jge _ | .iotrap5 => 5
  | .cmovg _ _ | .jg _ => 6

/-- The register operands of an instruction in the order of the register byte, 15 where it has none
(30_encoding.md R62). -/
def Instr.regFields : Instr → RegId × RegId
  | .rrmovq ra rb | .cmovle ra rb | .cmovl ra rb | .cmove ra rb | .cmovne ra rb | .cmovge ra rb | .cmovg ra rb
  | .rmmovq ra _ rb | .mrmovq _ rb ra | .addq ra rb | .subq ra rb | .andq ra rb | .xorq ra rb => (ra, rb)
  | .irmovq _ rb => (.noreg, rb)
  | .pushq ra | .popq ra => (ra, .noreg)
  | .jmp _ | .jle _ | .jl _ | .je _ | .jne _ | .jge _ | .jg _ | .call _ | .ret | .halt | .nop
  | .iotrap0 | .iotrap1 | .iotrap2 | .iotrap3 | .iotrap4 | .iotrap5 => (.noreg, .noreg)

/-- The immediate, displacement or destination of an instruction, 0 where it has none (30_encoding.md R62). -/
def Instr.valC : Instr → Word
  | .irmovq v _ | .rmmovq _ v _ | .mrmovq v _ _ | .jmp v | .jle v | .jl v | .je v | .jne v | .jge v | .jg v
  | .call v => v
  | .rrmovq _ _ | .cmovle _ _ | .cmovl _ _ | .cmove _ _ | .cmovne _ _ | .cmovge _ _ | .cmovg _ _
  | .addq _ _ | .subq _ _ | .andq _ _ | .xorq _ _ | .ret | .pushq _ | .popq _ | .halt | .nop
  | .iotrap0 | .iotrap1 | .iotrap2 | .iotrap3 | .iotrap4 | .iotrap5 => 0

/-- The record the decoder makes of an instruction at `pc` (30_encoding.md R62). -/
def Instr.record (i : Instr) (pc : Word) : Record where
  icode := i.icode
  ifun := i.ifun
  ra := i.regFields.1
  rb := i.regFields.2
  valC := i.valC
  valP := pc + BitVec.ofNat 64 i.icode.length

theorem Icode.ofNibble_nibble {c : Icode} (h : c ≠ .invalid) : Icode.ofNibble c.nibble = some c := by
  revert h; cases c <;> decide

theorem Icode.nibble_of_ofNibble {n : Nibble} {c : Icode} (h : Icode.ofNibble n = some c) : c.nibble = n := by
  revert n; cases c <;> decide

theorem Instr.icode_ne_invalid (i : Instr) : i.icode ≠ .invalid := by
  cases i <;> exact Icode.noConfusion

theorem Instr.instr?_record (i : Instr) (pc : Word) : (i.record pc).instr? = some i := by
  cases i <;> rfl

/-- An instruction's record passes the validity condition of its class exactly where the instruction is well formed. -/
theorem Instr.valid_record (p : Params) (i : Instr) (pc : Word) : (i.record pc).valid p = i.wellFormed p := by
  cases i <;> rfl

theorem Instr.canonical_record (i : Instr) (pc : Word) : (i.record pc).Canonical pc where
  icode := i.icode_ne_invalid
  ra := by cases i <;> simp [Instr.record, Instr.icode, Icode.hasRegByte, Instr.regFields]
  rb := by cases i <;> simp [Instr.record, Instr.icode, Icode.hasRegByte, Instr.regFields]
  valC := by cases i <;> simp [Instr.record, Instr.icode, Icode.valCOffset, Instr.valC]
  valP := rfl

theorem length_encode (i : Instr) : (encode i).length = i.icode.length := by
  cases i <;> rfl

/-- Extraction reads the valC field of a word's bytes as that word, whatever stands before and after it. -/
theorem wordOfBytes_byteAt_append (hd : List Byte) (v : Word) (rest : List Byte) :
    wordOfBytes (fun k => byteAt (hd ++ (wordBytes v ++ rest)) (hd.length + k)) = v := by
  refine (wordOfBytes_congr fun k hk => ?_).trans (wordOfBytes_wordByte v)
  rw [byteAt, List.getD_append_right _ _ _ _ (Nat.le_add_right ..), Nat.add_sub_cancel_left,
    List.getD_append _ _ _ _ (by rw [length_wordBytes]; exact hk), getD_wordBytes v k hk]

/-- Extraction inverts the byte image of a record whose unencoded fields hold their fixed values. -/
theorem rawRecord_bytes_append {pc : Word} {r : Record} (h : r.Canonical pc) (rest : List Byte) :
    rawRecord pc (r.bytes ++ rest) = some r := by
  obtain ⟨c, f, ra, rb, v, vp⟩ := r
  obtain ⟨hc, hra, hrb, hv, hvp⟩ := h
  simp only at hc hra hrb hv hvp
  have hclass : Icode.ofNibble (hiNibble (byteOfNibbles c.nibble f)) = some c := by
    rw [hiNibble_byteOfNibbles, Icode.ofNibble_nibble hc]
  have hF9 (b0 : Byte) := wordOfBytes_byteAt_append [b0] v rest
  have hF10 (b0 b1 : Byte) := wordOfBytes_byteAt_append [b0, b1] v rest
  cases c <;> simp_all [rawRecord, Record.bytes, byteAt, regByte, Icode.hasRegByte, Icode.valCOffset]

/-- The eight bytes of an assembled word are those it was assembled from. -/
theorem wordBytes_wordOfBytes (f : Nat → Byte) :
    wordBytes (wordOfBytes f) = [f 0, f 1, f 2, f 3, f 4, f 5, f 6, f 7] := by
  simp only [wordBytes, wordByte_wordOfBytes, Nat.reduceLT]

theorem regByte_ofNibble (b : Byte) :
    regByte (RegId.ofNibble (hiNibble b)) (RegId.ofNibble (loNibble b)) = b := by
  simp only [regByte, RegId.nibble_ofNibble, byteOfNibbles_hi_lo]

/-- The first `n` bytes of a sequence that has so many. -/
theorem take_eq_map_byteAt {bs : List Byte} {n : Nat} (h : n ≤ bs.length) :
    bs.take n = (List.range n).map (byteAt bs) := by
  apply List.ext_getElem
  · simp [h]
  · intro k hk _
    have hlt : k < bs.length := by simp only [List.length_take] at hk; omega
    simp [byteAt, hlt]

/-- The byte image of an extracted record is the bytes it was extracted from. -/
theorem Record.bytes_of_rawRecord {pc : Word} {bs : List Byte} {r : Record} (h : rawRecord pc bs = some r)
    (hlen : r.icode.length ≤ bs.length) : r.bytes = bs.take r.icode.length := by
  rw [take_eq_map_byteAt hlen]
  unfold rawRecord at h
  split at h
  · cases h
  next c hc =>
    cases h
    have hfirst : byteOfNibbles c.nibble (loNibble (byteAt bs 0)) = byteAt bs 0 := by
      rw [Icode.nibble_of_ofNibble hc, byteOfNibbles_hi_lo]
    cases c
    case invalid => exact (Icode.ofNibble_ne_invalid _ hc).elim
    all_goals
      simp [Record.bytes, hfirst, regByte_ofNibble, wordBytes_wordOfBytes, Icode.hasRegByte, Icode.valCOffset,
        Icode.length, List.range_succ]

theorem RegId.isReg_eq_false_iff (r : RegId) : r.isReg = false ↔ r = .noreg := by
  cases r <;> simp [RegId.isReg]

/-- The byte image of a record that passes its class's register checks is the encoding of its instruction: what the
encoding does not show, the checks fix (30_encoding.md R71, R77). -/
theorem Record.bytes_of_instr? {p : Params} {r : Record} {i : Instr} (hi : r.instr? = some i)
    (hr : r.registersOk p = true) : r.bytes = encode i := by
  obtain ⟨c, f, ra, rb, v, vp⟩ := r
  obtain ⟨n, hn⟩ : ∃ n, f.toNat = n := ⟨_, rfl⟩
  have hf : f = BitVec.ofNat 4 n := by rw [← hn, BitVec.ofNat_toNat, BitVec.setWidth_eq]
  simp only [Record.instr?, hn] at hi
  split at hi
  all_goals cases hi
  all_goals subst hf
  all_goals
    simp_all [Record.registersOk, Record.bytes, encode, Icode.nibble, Icode.hasRegByte, Icode.valCOffset,
      byteOfNibbles, RegId.isReg_eq_false_iff]

/-- The instruction of a record that passes the register checks is well formed. -/
theorem Instr.wellFormed_of_instr? {p : Params} {r : Record} {i : Instr} (hi : r.instr? = some i)
    (hr : r.registersOk p = true) : i.wellFormed p = true := by
  unfold Record.instr? at hi
  split at hi
  all_goals cases hi
  all_goals simp_all [Record.registersOk, Instr.wellFormed]

/-- A record that passes the validity condition passes the register checks. -/
theorem Record.registersOk_of_valid {p : Params} {r : Record} (h : r.valid p = true) : r.registersOk p = true :=
  (Bool.and_eq_true_iff.1 h).2

/-- Extraction reads the encoding of a well-formed instruction as its record (30_encoding.md R67). -/
theorem rawRecord_encode_append {p : Params} {i : Instr} (hwf : i.wellFormed p = true) (pc : Word)
    (rest : List Byte) : rawRecord pc (encode i ++ rest) = some (i.record pc) := by
  have hvalid : (i.record pc).valid p = true := (i.valid_record p pc).trans hwf
  rw [← Record.bytes_of_instr? (i.instr?_record pc) (Record.registersOk_of_valid hvalid)]
  exact rawRecord_bytes_append (i.canonical_record pc) rest

/-- A sequence that extracts to a valid record, long enough for its class, decodes to the record's instruction. -/
theorem decode_of_rawRecord {p : Params} {bs : List Byte} {r : Record} {i : Instr} (hraw : rawRecord 0 bs = some r)
    (hlen : r.icode.length ≤ bs.length) (hvalid : r.valid p = true) (hi : r.instr? = some i) :
    decode p bs = .ok (i, bs.drop r.icode.length) := by
  have hpos := (Icode.length_bounds (Record.icode_of_valid hvalid)).1
  have hne : bs.isEmpty = false := by
    cases bs with
    | nil => simp only [List.length_nil] at hlen; omega
    | cons => rfl
  rw [decode, hne, hraw]
  simp [Nat.not_lt.2 hlen, Record.functionOk_of_valid hvalid, Record.registersOk_of_valid hvalid, hi]

/-- Settles O1: extraction inverts the byte image of the instruction's record, and the record passes every check
because the instruction is well formed. -/
theorem decodeOfEncodeGivesTheInstruction : Obligations.DecodeOfEncodeGivesTheInstruction := by
  intro p i rest hwf
  have hlen : (i.record 0).icode.length = (encode i).length := (length_encode i).symm
  have hle : (i.record 0).icode.length ≤ (encode i ++ rest).length := by
    rw [hlen, List.length_append]
    exact Nat.le_add_right ..
  rw [decode_of_rawRecord (rawRecord_encode_append hwf 0 rest) hle ((i.valid_record p 0).trans hwf)
    (i.instr?_record 0), hlen, List.drop_left]

/-- Settles O2: the accepted sequence extracted to a valid record, whose byte image is both the head of the sequence and
the encoding of its instruction. -/
theorem encodeOfDecodedBytesGivesTheBytes : Obligations.EncodeOfDecodedBytesGivesTheBytes := by
  intro p bs rest i h
  obtain ⟨r, hraw, hlen, hvalid, hi, rfl⟩ := decode_ok_inv h
  have hregs := Record.registersOk_of_valid hvalid
  refine ⟨Instr.wellFormed_of_instr? hi hregs, ?_⟩
  rw [← Record.bytes_of_instr? hi hregs, Record.bytes_of_rawRecord hraw hlen, List.take_append_drop]

/-- Settles O3: four of the seven sequences decode as written and three are rejected, each a closed evaluation of the
decoder on the bytes the spec gives. -/
theorem specWordsDecodeAsWritten : Obligations.SpecWordsDecodeAsWritten := by
  unfold Obligations.SpecWordsDecodeAsWritten
  decide

end Sys2Proof
end

section
/-! What the operations of the state leave unchanged and what they write: one register, one run of eight bytes, one read
of eight bytes. The instructions' results and frames below are assembled from these. -/

namespace Sys2Proof.Machine

theorem State.reg_setReg_of_ne (s : State) {d r : RegId} (v : Word) (h : r ≠ d) : (s.setReg d v).reg r = s.reg r := by
  rw [State.reg_setReg, if_neg fun hrd => h hrd.1]

theorem State.sameRegsExcept_setReg (s : State) (d : RegId) (v : Word) : SameRegsExcept [d] s (s.setReg d v) :=
  fun _ hr => s.reg_setReg_of_ne v (List.ne_of_not_mem_cons hr)

section
variable (ra : RegId) (valM valE : Word) (s : State)

@[simp] theorem popqWriteback_params : (popqWriteback ra valM valE s).params = s.params := by rw [popqWriteback_eq]
@[simp] theorem popqWriteback_pc : (popqWriteback ra valM valE s).pc = s.pc := by rw [popqWriteback_eq]
@[simp] theorem popqWriteback_zeroFlag : (popqWriteback ra valM valE s).zeroFlag = s.zeroFlag := by
  rw [popqWriteback_eq]
@[simp] theorem popqWriteback_signFlag : (popqWriteback ra valM valE s).signFlag = s.signFlag := by
  rw [popqWriteback_eq]
@[simp] theorem popqWriteback_overflowFlag : (popqWriteback ra valM valE s).overflowFlag = s.overflowFlag := by
  rw [popqWriteback_eq]
@[simp] theorem popqWriteback_status : (popqWriteback ra valM valE s).status = s.status := by rw [popqWriteback_eq]
@[simp] theorem popqWriteback_count : (popqWriteback ra valM valE s).count = s.count := by rw [popqWriteback_eq]
@[simp] theorem popqWriteback_last : (popqWriteback ra valM valE s).last = s.last := by rw [popqWriteback_eq]
@[simp] theorem popqWriteback_mem : (popqWriteback ra valM valE s).mem = s.mem := by rw [popqWriteback_eq]
@[simp] theorem popqWriteback_draws : (popqWriteback ra valM valE s).draws = s.draws := by rw [popqWriteback_eq]

end

/-- Inside a stored word that exists, memory holds the word's bytes. -/
theorem Memory.read_writeWord_inside {cap : Nat} (m : Memory) {a k : Nat} (v : Word) (hk : k < 8) (hcap : a + k < cap) :
    (m.writeBytes cap a (wordBytes v)).read (a + k) = wordByte v k := by
  rw [Memory.read_writeWord, if_pos ⟨by omega, by omega, hcap⟩, Nat.add_sub_cancel_left]

/-- Outside a stored word, memory is as before. -/
theorem Memory.read_writeWord_outside (cap : Nat) (m : Memory) (v : Word) {a x : Nat} (h : ¬(a ≤ x ∧ x < a + 8)) :
    (m.writeBytes cap a (wordBytes v)).read x = m.read x := by
  rw [Memory.read_writeWord, if_neg fun ⟨hle, hlt, _⟩ => h ⟨hle, hlt⟩]

/-- A loaded word has the memory's bytes, as far as they exist. -/
theorem State.wordByte_readByte {s : State} {a : Word} {k : Nat} (hk : k < 8) (h : a.toNat + k < s.params.memSize) :
    wordByte (wordOfBytes (s.readByte a)) k = s.mem.read (a.toNat + k) := by
  rw [wordByte_wordOfBytes _ _ hk, State.readByte_of_lt h]

/-- A write request that does not fault stores the word's bytes. -/
theorem State.lsuWrite_of_not_lsuFault (s : State) {a : Word} (v : Word) (h : lsuFault s.params a = false) :
    s.lsuWrite a v = some { s with mem := s.mem.writeBytes s.params.memSize a.toNat (wordBytes v) } :=
  if_neg (Bool.eq_false_iff.1 h)

theorem straddles_eq_false_of_fits {p : Params} {a : Word} (h : a.toNat + 8 ≤ p.memSize) : straddles p a = false := by
  simp only [straddles, Bool.and_eq_false_iff, decide_eq_false_iff_not]
  omega

/-- The draws of a load that fits are none. -/
theorem draws_of_fits {p : Params} {a : Word} (n : Nat) (h : a.toNat + 8 ≤ p.memSize) :
    (if straddles p a = true then n + 8 else n) = n := by
  rw [straddles_eq_false_of_fits h]
  rfl

/-- A read request that fits answers the word whose bytes stand there, and changes nothing. -/
theorem State.lsuRead_of_bytes {s : State} {a v : Word} (hfit : a.toNat + 8 ≤ s.params.memSize)
    (hbytes : ∀ k, k < 8 → s.mem.read (a.toNat + k) = wordByte v k) : s.lsuRead a = some (v, s) := by
  have hword : wordOfBytes (s.readByte a) = v := word_eq_of_bytes fun k hk =>
    (State.wordByte_readByte hk (by omega)).trans (hbytes k hk)
  simp [State.lsuRead, lsuFault_of_fits hfit, straddles_eq_false_of_fits hfit, hword]

/-- A two-way description by the value of a check, as one implication for each value. -/
theorem imp_and_imp_of_bool_cases {b : Bool} {P Q : Prop} (h : (b = true ∧ P) ∨ (b = false ∧ Q)) :
    (b = true → P) ∧ (b = false → Q) := by
  cases b <;> simpa using h

end Sys2Proof.Machine

namespace Sys2Proof

open Sys2Proof.Machine

/-- Settles O50: the register file's read-after-write, and id 15, whose write is no update at all. -/
theorem registerWritesAreReadBack : Obligations.RegisterWritesAreReadBack := fun s d r v =>
  ⟨s.reg_setReg d r v, s.reg_noreg, s.setReg_noreg v⟩

/-- Settles O47: the stored bytes are the word's, and a read that fits answers the word of those bytes. -/
theorem writeThenReadGivesTheWord : Obligations.WriteThenReadGivesTheWord := by
  intro s a v hfit
  have hbytes : ∀ k, k < 8 →
      (s.mem.writeBytes s.params.memSize a.toNat (wordBytes v)).read (a.toNat + k) = wordByte v k :=
    fun k hk => Memory.read_writeWord_inside s.mem v hk (by omega)
  refine ⟨_, s.lsuWrite_of_not_lsuFault v (lsuFault_of_fits hfit), ?read, hbytes, ?fetch⟩
  case read => exact State.lsuRead_of_bytes hfit hbytes
  case fetch => exact (fetchByte_of_lt (by omega : a.toNat < s.params.memSize)).trans (hbytes 0 (by omega))

/-- Settles O49: below RSP there is room for eight bytes exactly from 8 on, and RSP = 0 puts the slot at the top of the
address space. -/
theorem stackPointerBoundsForStackUse : Obligations.StackPointerBoundsForStackUse := by
  intro s
  refine ⟨fun hlow hhigh => lsuFault_of_fits ?_, lsuFault_of_fits, fun hzero hcap => ?_⟩
  · rw [BitVec.toNat_sub_of_le (BitVec.le_def.2 (show (8 : Word).toNat ≤ _ from hlow))]
    exact (Nat.sub_add_cancel hlow).trans_le hhigh
  · rw [lsuFault_eq_true_iff, hzero]
    exact .inl hcap

end Sys2Proof
end

section
/-! The instructions that access memory, both ways (42_moves.md R139, R140; 44_control_transfer.md R178, R179;
45_stack.md R190, R191): where the LSU check fails only the status changes, and CALL's pc; else one word moves between
memory and the registers. -/

namespace Sys2Proof

open Sys2Proof.Machine

/-- Settles O30: the check fails, or the word's bytes are written and pc advances. -/
theorem storeWritesEightBytesOrFaults : Obligations.StoreWritesEightBytesOrFaults := by
  intro ra disp rb s
  obtain ⟨hfault, hstore⟩ := imp_and_imp_of_bool_cases (execRmmovq_cases ra disp rb s)
  refine ⟨rfl, hfault, fun hf => ⟨_, hstore hf, rfl, ?bytes, ?outside, ?frame⟩⟩
  case bytes => exact fun k hk hcap => Memory.read_writeWord_inside s.mem _ hk hcap
  case outside => exact fun x hx => Memory.read_writeWord_outside _ s.mem _ hx
  case frame => exact ⟨fun _ _ => rfl, ⟨rfl, rfl, rfl⟩, ⟨rfl, rfl, rfl⟩, rfl, rfl⟩

/-- Settles O31: the check fails, or the word of the bytes read goes to the destination and pc advances. -/
theorem loadReadsEightBytesOrFaults : Obligations.LoadReadsEightBytesOrFaults := by
  intro disp rb ra s
  obtain ⟨hfault, hload⟩ := imp_and_imp_of_bool_cases (execMrmovq_cases disp rb ra s)
  refine ⟨rfl, hfault, fun hf => ?noFault⟩
  refine ⟨_, wordOfBytes (s.readByte (disp + s.reg rb)), hload hf, rfl, ?bytes, ?registers, ?frame⟩
  case bytes => exact fun k hk hcap => State.wordByte_readByte hk hcap
  case registers => exact fun r => State.reg_setReg ..
  case frame => exact ⟨⟨rfl, rfl, rfl⟩, fun _ => rfl, ⟨rfl, rfl, rfl⟩, rfl, draws_of_fits _⟩

/-- Settles O35: the check fails and the jump still occurs, or the return address is pushed and the jump occurs. -/
theorem callPushesTheReturnAddressOrFaults : Obligations.CallPushesTheReturnAddressOrFaults := by
  intro dest s
  obtain ⟨hfault, hpush⟩ := imp_and_imp_of_bool_cases (execCall_cases dest s)
  refine ⟨rfl, hfault, fun hf => ⟨_, hpush hf, rfl, rfl, ?bytes, ?outside, ?frame⟩⟩
  case bytes => exact fun k hk hcap => Memory.read_writeWord_inside s.mem _ hk hcap
  case outside => exact fun x hx => Memory.read_writeWord_outside _ s.mem _ hx
  case frame => exact ⟨State.sameRegsExcept_setReg s _ _, ⟨rfl, rfl, rfl⟩, ⟨rfl, rfl, rfl⟩, rfl, rfl⟩

/-- Settles O36: the check fails, or the word of the bytes read goes to pc and RSP advances. -/
theorem returnPopsThePcOrFaults : Obligations.ReturnPopsThePcOrFaults := by
  intro s
  obtain ⟨hfault, hpop⟩ := imp_and_imp_of_bool_cases (execRet_cases s)
  refine ⟨rfl, hfault, fun hf => ⟨_, hpop hf, rfl, ?bytes, ?registers, ?frame⟩⟩
  case bytes => exact fun k hk hcap => State.wordByte_readByte hk hcap
  case registers => exact State.sameRegsExcept_setReg s _ _
  case frame => exact ⟨⟨rfl, rfl, rfl⟩, fun _ => rfl, ⟨rfl, rfl, rfl⟩, rfl, draws_of_fits _⟩

/-- Settles O37: the check fails, or the pre-step word is pushed and pc advances. -/
theorem pushStoresTheOldValueOrFaults : Obligations.PushStoresTheOldValueOrFaults := by
  intro ra s
  obtain ⟨hfault, hpush⟩ := imp_and_imp_of_bool_cases (execPushq_cases ra s)
  refine ⟨rfl, hfault, fun hf => ⟨_, hpush hf, rfl, rfl, ?bytes, ?outside, ?frame⟩⟩
  case bytes => exact fun k hk hcap => Memory.read_writeWord_inside s.mem _ hk hcap
  case outside => exact fun x hx => Memory.read_writeWord_outside _ s.mem _ hx
  case frame => exact ⟨State.sameRegsExcept_setReg s _ _, ⟨rfl, rfl, rfl⟩, ⟨rfl, rfl, rfl⟩, rfl, rfl⟩

/-- Settles O38: the check fails, or the two register writes of the pop are made and pc advances. -/
theorem popLoadsAndAdvancesTheStackOrFaults : Obligations.PopLoadsAndAdvancesTheStackOrFaults := by
  intro ra s
  obtain ⟨hfault, hpop⟩ := imp_and_imp_of_bool_cases (execPopq_cases ra s)
  refine ⟨rfl, hfault, fun hf => ?noFault⟩
  refine ⟨_, wordOfBytes (s.readByte (s.reg .rsp)), hpop hf, ?pc, ?bytes, ?registers, ?flags, ?memory, ?driver, ?status,
    ?draws⟩
  case pc => rfl
  case bytes => exact fun k hk hcap => State.wordByte_readByte hk hcap
  case registers => exact fun r => reg_popqWriteback ..
  case flags => exact ⟨popqWriteback_zeroFlag .., popqWriteback_signFlag .., popqWriteback_overflowFlag ..⟩
  case memory => exact fun x => congrArg (Memory.read · x) (popqWriteback_mem ..)
  case driver => exact ⟨popqWriteback_params .., popqWriteback_count .., popqWriteback_last ..⟩
  case status => exact popqWriteback_status ..
  case draws => exact fun hfit => (popqWriteback_draws ..).trans (draws_of_fits _ hfit)

end Sys2Proof
end

section
/-! What an instruction can do, said once over all 33: `exec_effect` inverts `exec` into the outcomes of the datapaths
of 41_halt_nop.md to 46_iotrap_invalid.md, and the rules over all instructions are case analyses of it. -/

namespace Sys2Proof

open Sys2Proof.Machine

@[simp] theorem Instr.icode_halt : Instr.halt.icode = .halt := rfl
@[simp] theorem Instr.icode_irmovq (imm : Word) (rb : RegId) : (Instr.irmovq imm rb).icode = .irmovq := rfl
@[simp] theorem Instr.icode_rmmovq (ra : RegId) (disp : Word) (rb : RegId) :
    (Instr.rmmovq ra disp rb).icode = .rmmovq := rfl
@[simp] theorem Instr.icode_mrmovq (disp : Word) (rb ra : RegId) : (Instr.mrmovq disp rb ra).icode = .mrmovq := rfl
@[simp] theorem Instr.icode_call (dest : Word) : (Instr.call dest).icode = .call := rfl
@[simp] theorem Instr.icode_ret : Instr.ret.icode = .ret := rfl
@[simp] theorem Instr.icode_pushq (ra : RegId) : (Instr.pushq ra).icode = .pushq := rfl
@[simp] theorem Instr.icode_popq (ra : RegId) : (Instr.popq ra).icode = .popq := rfl

theorem Instr.isOpq_eq_true_iff (i : Instr) : i.isOpq = true ↔ i.icode = .opq := by
  cases i <;> simp [Instr.isOpq, Instr.icode]

theorem Instr.eq_halt_iff (i : Instr) : i = .halt ↔ i.icode = .halt := by
  cases i <;> simp [Instr.icode]

/-- Three classes store (20_memory.md R45). -/
theorem Instr.storeAddress?_eq_none {i : Instr} (h : i.icode ∉ [Icode.rmmovq, .call, .pushq]) (s : State) :
    i.storeAddress? s = none := by
  cases i <;> simp_all [Instr.storeAddress?, Instr.icode]

/-- Three classes load (20_memory.md R45). -/
theorem Instr.loadAddress?_eq_none {i : Instr} (h : i.icode ∉ [Icode.mrmovq, .ret, .popq]) (s : State) :
    i.loadAddress? s = none := by
  cases i <;> simp_all [Instr.loadAddress?, Instr.icode]

theorem Instr.loadAddress?_of_storeAddress? {i : Instr} {s : State} {a : Word} (h : i.storeAddress? s = some a) :
    i.loadAddress? s = none := by
  cases i
  case rmmovq | call | pushq => rfl
  all_goals cases h

/-- The data access of `i` from `s`, if it makes one, fails the LSU check (20_memory.md R46). -/
def Instr.dataFault (i : Instr) (s : State) : Bool :=
  (i.storeAddress? s).any (lsuFault s.params) || (i.loadAddress? s).any (lsuFault s.params)

theorem Instr.dataFault_of_store {i : Instr} {s : State} {a : Word} (h : i.storeAddress? s = some a) :
    i.dataFault s = lsuFault s.params a := by
  simp only [Instr.dataFault, h, Instr.loadAddress?_of_storeAddress? h, Option.any_some, Option.any_none, Bool.or_false]

theorem Instr.dataFault_of_load {i : Instr} {s : State} {a : Word} (hs : i.storeAddress? s = none)
    (h : i.loadAddress? s = some a) : i.dataFault s = lsuFault s.params a := by
  simp only [Instr.dataFault, hs, h, Option.any_some, Option.any_none, Bool.false_or]

theorem Instr.dataFault_of_no_access {i : Instr} {s : State} (hs : i.storeAddress? s = none)
    (hl : i.loadAddress? s = none) : i.dataFault s = false := by
  simp only [Instr.dataFault, hs, hl, Option.any_none, Bool.or_false]

/-- The classes without a data access have no failed one. -/
theorem Instr.dataFault_of_icode {i : Instr}
    (h : i.icode ∈ [Icode.nop, .cmov, .irmovq, .opq, .jump, .iotrap]) (s : State) : i.dataFault s = false := by
  refine Instr.dataFault_of_no_access (Instr.storeAddress?_eq_none ?_ s) (Instr.loadAddress?_eq_none ?_ s) <;>
    (revert h; cases i.icode <;> decide)

end Sys2Proof

namespace Sys2Proof.Machine

/-- The outcomes of the instructions from `s`, one constructor per datapath, and two where the LSU check decides. -/
inductive Effect (s : State) : Instr → State → Prop
  | halt : Effect s .halt ((s.raise .halted).setPc (s.pc + 1))
  | idle {i : Instr} (hi : i.icode ∈ [Icode.nop, .iotrap]) : Effect s i (s.setPc (s.pc + 1))
  | cmovTaken {i : Instr} {ra rb : RegId} (hi : i.icode = .cmov) (hd : i.destinations = [rb]) :
      Effect s i ((s.setReg rb (s.reg ra)).setPc (s.pc + 2))
  | cmovNotTaken {i : Instr} (hi : i.icode = .cmov) : Effect s i (s.setPc (s.pc + 2))
  | irmovq (imm : Word) (rb : RegId) : Effect s (.irmovq imm rb) ((s.setReg rb imm).setPc (s.pc + 10))
  | opq {i : Instr} {op : AluOp} {ra rb : RegId} (hi : i.icode = .opq) (hd : i.destinations = [rb]) :
      Effect s i
        (((s.setAluFlags op (s.reg ra) (s.reg rb)).setReg rb (aluResult op (s.reg ra) (s.reg rb))).setPc (s.pc + 2))
  | jump {i : Instr} (target : Word) (hi : i.icode = .jump) : Effect s i (s.setPc target)
  | storeFault {i : Instr} {a : Word} (hi : i.icode ∈ [Icode.rmmovq, .pushq]) (ha : i.storeAddress? s = some a)
      (hf : lsuFault s.params a = true) : Effect s i (s.raise .addressError)
  | callFault {dest : Word} (hf : lsuFault s.params (s.reg .rsp - 8) = true) :
      Effect s (.call dest) ((s.raise .addressError).setPc dest)
  | loadFault {i : Instr} {a : Word} (hi : i.icode ∈ [Icode.mrmovq, .ret, .popq]) (ha : i.loadAddress? s = some a)
      (hf : lsuFault s.params a = true) : Effect s i (s.raise .addressError)
  | rmmovq {ra : RegId} {disp : Word} {rb : RegId} (hf : lsuFault s.params (disp + s.reg rb) = false) :
      Effect s (.rmmovq ra disp rb)
        ({ s with
          mem := s.mem.writeBytes s.params.memSize (disp + s.reg rb).toNat (wordBytes (s.reg ra)) }.setPc (s.pc + 10))
  | mrmovq {disp : Word} {rb ra : RegId} (draws : Nat) (hf : lsuFault s.params (disp + s.reg rb) = false) :
      Effect s (.mrmovq disp rb ra)
        (({ s with draws := draws }.setReg ra (wordOfBytes (s.readByte (disp + s.reg rb)))).setPc (s.pc + 10))
  | call {dest : Word} (hf : lsuFault s.params (s.reg .rsp - 8) = false) :
      Effect s (.call dest)
        (({ s with
          mem := s.mem.writeBytes s.params.memSize (s.reg .rsp - 8).toNat (wordBytes (s.pc + 9)) }.setReg .rsp
            (s.reg .rsp - 8)).setPc dest)
  | ret (draws : Nat) (hf : lsuFault s.params (s.reg .rsp) = false) :
      Effect s .ret
        (({ s with draws := draws }.setPc (wordOfBytes (s.readByte (s.reg .rsp)))).setReg .rsp (s.reg .rsp + 8))
  | pushq {ra : RegId} (hf : lsuFault s.params (s.reg .rsp - 8) = false) :
      Effect s (.pushq ra)
        (({ s with
          mem := s.mem.writeBytes s.params.memSize (s.reg .rsp - 8).toNat (wordBytes (s.reg ra)) }.setReg .rsp
            (s.reg .rsp - 8)).setPc (s.pc + 2))
  | popq {ra : RegId} (draws : Nat) (hf : lsuFault s.params (s.reg .rsp) = false) :
      Effect s (.popq ra)
        ((popqWriteback ra (wordOfBytes (s.readByte (s.reg .rsp))) (s.reg .rsp + 8) { s with draws := draws }).setPc
          (s.pc + 2))

/-- The CMOV datapath moves or does not. -/
theorem cmovStep_effect {c : Cond} {ra rb : RegId} {s t : State} {i : Instr} (hi : i.icode = .cmov)
    (hd : i.destinations = [rb]) (h : cmovStep c ra rb s = .next t) : Effect s i t := by
  rw [cmovStep_eq] at h
  cases hc : s.condition c <;> rw [hc] at h <;> cases h
  · exact .cmovNotTaken hi
  · exact .cmovTaken hi hd

/-- Every next state of `exec` is one of the outcomes. -/
theorem exec_effect {i : Instr} {s t : State} (h : exec i s = .next t) : Effect s i t := by
  cases i
  case halt => cases h; exact .halt
  case nop | iotrap0 | iotrap1 | iotrap2 | iotrap3 | iotrap4 | iotrap5 => cases h; exact .idle (by decide)
  case rrmovq | cmovle | cmovl | cmove | cmovne | cmovge | cmovg => exact cmovStep_effect rfl rfl h
  case irmovq => cases h; exact .irmovq _ _
  case addq | subq | andq | xorq => cases h; exact .opq rfl rfl
  case jmp | jle | jl | je | jne | jge | jg => cases h; exact .jump _ rfl
  case rmmovq ra disp rb =>
    rcases execRmmovq_cases ra disp rb s with ⟨hf, he⟩ | ⟨hf, he⟩ <;> cases he.symm.trans h
    · exact .storeFault (by simp) rfl hf
    · exact .rmmovq hf
  case mrmovq disp rb ra =>
    rcases execMrmovq_cases disp rb ra s with ⟨hf, he⟩ | ⟨hf, he⟩ <;> cases he.symm.trans h
    · exact .loadFault (by simp) rfl hf
    · exact .mrmovq _ hf
  case call dest =>
    rcases execCall_cases dest s with ⟨hf, he⟩ | ⟨hf, he⟩ <;> cases he.symm.trans h
    · exact .callFault hf
    · exact .call hf
  case ret =>
    rcases execRet_cases s with ⟨hf, he⟩ | ⟨hf, he⟩ <;> cases he.symm.trans h
    · exact .loadFault (by simp) rfl hf
    · exact .ret _ hf
  case pushq ra =>
    rcases execPushq_cases ra s with ⟨hf, he⟩ | ⟨hf, he⟩ <;> cases he.symm.trans h
    · exact .storeFault (by simp) rfl hf
    · exact .pushq hf
  case popq ra =>
    rcases execPopq_cases ra s with ⟨hf, he⟩ | ⟨hf, he⟩ <;> cases he.symm.trans h
    · exact .loadFault (by simp) rfl hf
    · exact .popq _ hf

/-- No instruction writes a parameter or an item of the driver (10_state.md R30, R31). -/
theorem Effect.sameDriver {i : Instr} {s t : State} (h : Effect s i t) : SameDriver s t := by
  cases h with
  | popq => exact ⟨popqWriteback_params .., popqWriteback_count .., popqWriteback_last ..⟩
  | _ => exact ⟨rfl, rfl, rfl⟩

theorem Effect.sameFlags {i : Instr} {s t : State} (h : Effect s i t) (hi : i.icode ≠ .opq) : SameFlags s t := by
  cases h with
  | opq hopq => exact (hi hopq).elim
  | popq => exact ⟨popqWriteback_zeroFlag .., popqWriteback_signFlag .., popqWriteback_overflowFlag ..⟩
  | _ => exact ⟨rfl, rfl, rfl⟩

theorem Effect.sameRegsExcept {i : Instr} {s t : State} (h : Effect s i t) :
    SameRegsExcept i.destinations s t := by
  cases h with
  | cmovTaken _ hd | opq _ hd => exact hd ▸ s.sameRegsExcept_setReg _ _
  | irmovq | mrmovq | call | ret | pushq => exact s.sameRegsExcept_setReg _ _
  | @popq ra =>
    intro r hr
    obtain ⟨hra, hrsp⟩ : r ≠ ra ∧ r ≠ .rsp := by simpa [Instr.destinations] using hr
    exact (reg_popqWriteback ..).trans (by rw [if_neg fun h => hrsp h.1, if_neg fun h => hra h.1]; rfl)
  | _ => exact fun _ _ => rfl

/-- Memory is as before, or one word was stored at the instruction's own address (20_memory.md R45). -/
theorem Effect.mem_cases {i : Instr} {s t : State} (h : Effect s i t) :
    t.mem = s.mem ∨
    ∃ a v, i.storeAddress? s = some a ∧ t.mem = s.mem.writeBytes s.params.memSize a.toNat (wordBytes v) := by
  cases h with
  | rmmovq | call | pushq => exact .inr ⟨_, _, rfl, rfl⟩
  | popq => exact .inl (popqWriteback_mem ..)
  | _ => exact .inl rfl

/-- HALT sets HALTED, a failed data access ADDRESS_ERROR, and nothing else the status (10_state.md R28). -/
theorem Effect.status {i : Instr} {s t : State} (h : Effect s i t) :
    t.status = if i = .halt then .halted else if i.dataFault s = true then .addressError else s.status := by
  have raised {i : Instr} (hhalt : i.icode ≠ .halt) (hf : i.dataFault s = true) :
      Status.addressError =
        if i = .halt then .halted else if i.dataFault s = true then .addressError else s.status := by
    rw [if_neg (mt i.eq_halt_iff.1 hhalt), if_pos hf]
  have kept {i : Instr} (hhalt : i.icode ≠ .halt) (hf : i.dataFault s = false) :
      s.status = if i = .halt then .halted else if i.dataFault s = true then .addressError else s.status := by
    rw [if_neg (mt i.eq_halt_iff.1 hhalt), if_neg (Bool.eq_false_iff.1 hf)]
  cases h with
  | halt => rfl
  | storeFault hi ha hf =>
    exact raised (fun h => by simp [h] at hi) ((Instr.dataFault_of_store ha).trans hf)
  | loadFault hi ha hf =>
    have hs : i.storeAddress? s = none := Instr.storeAddress?_eq_none (by revert hi; cases i.icode <;> decide) s
    exact raised (fun h => by simp [h] at hi) ((Instr.dataFault_of_load hs ha).trans hf)
  | callFault hf => exact raised Icode.noConfusion ((Instr.dataFault_of_store rfl).trans hf)
  | rmmovq hf | call hf | pushq hf => exact kept Icode.noConfusion ((Instr.dataFault_of_store rfl).trans hf)
  | mrmovq _ hf | ret _ hf => exact kept Icode.noConfusion ((Instr.dataFault_of_load rfl rfl).trans hf)
  | popq _ hf =>
    exact (popqWriteback_status ..).trans (kept Icode.noConfusion ((Instr.dataFault_of_load rfl rfl).trans hf))
  | irmovq => rfl
  | idle hi =>
    exact kept (fun h => by simp [h] at hi) (Instr.dataFault_of_icode (by revert hi; cases i.icode <;> decide) s)
  | cmovTaken hi | cmovNotTaken hi | opq hi | jump _ hi =>
    exact kept (by rw [hi]; decide) (Instr.dataFault_of_icode (by rw [hi]; decide) s)

/-- The classes that only go on advance pc by their length (40_sequencer.md R102). -/
theorem Effect.pc_of_straight {i : Instr} {s t : State} (h : Effect s i t)
    (hi : i.icode ∈ [Icode.halt, .nop, .cmov, .irmovq, .opq, .iotrap]) : t.pc = s.valP i.icode := by
  cases h with
  | halt | irmovq => rfl
  | idle hi' =>
    simp only [List.mem_cons, List.not_mem_nil, or_false] at hi'
    rcases hi' with h | h <;> rw [h] <;> rfl
  | cmovTaken h | cmovNotTaken h | opq h => rw [h]; rfl
  | storeFault hi' | loadFault hi' => exfalso; revert hi hi'; cases i.icode <;> decide
  | jump _ h => simp [h] at hi
  | _ => simp at hi

/-- RMMOVQ and PUSHQ advance pc by their length where their data access passes, else not at all
(40_sequencer.md R102, D14). -/
theorem Effect.pc_of_store {i : Instr} {s t : State} {a : Word} (h : Effect s i t)
    (hi : i.icode ∈ [Icode.rmmovq, .pushq]) (ha : i.storeAddress? s = some a) :
    t.pc = if lsuFault s.params a = true then s.pc else s.valP i.icode := by
  cases h with
  | storeFault _ ha' hf => cases ha.symm.trans ha'; exact (if_pos hf).symm
  | rmmovq hf | pushq hf => cases ha; exact (if_neg (Bool.eq_false_iff.1 hf)).symm
  | idle hi' | loadFault hi' => exfalso; revert hi hi'; cases i.icode <;> decide
  | cmovTaken h | cmovNotTaken h | opq h | jump _ h => simp [h] at hi
  | _ => simp at hi

/-- MRMOVQ and POPQ likewise. -/
theorem Effect.pc_of_load {i : Instr} {s t : State} {a : Word} (h : Effect s i t)
    (hi : i.icode ∈ [Icode.mrmovq, .popq]) (ha : i.loadAddress? s = some a) :
    t.pc = if lsuFault s.params a = true then s.pc else s.valP i.icode := by
  cases h with
  | loadFault _ ha' hf => cases ha.symm.trans ha'; exact (if_pos hf).symm
  | mrmovq _ hf | popq _ hf => cases ha; exact (if_neg (Bool.eq_false_iff.1 hf)).symm
  | idle hi' | storeFault hi' => exfalso; revert hi hi'; cases i.icode <;> decide
  | cmovTaken h | cmovNotTaken h | opq h | jump _ h => simp [h] at hi
  | _ => simp at hi

/-- CALL goes to its destination either way (44_control_transfer.md R178). -/
theorem Effect.pc_of_call {dest : Word} {s t : State} (h : Effect s (.call dest) t) : t.pc = dest := by
  cases h with
  | callFault | call => rfl
  | idle hi | storeFault hi | loadFault hi => simp at hi
  | cmovTaken h | cmovNotTaken h | opq h | jump _ h => cases h

/-- RET stays where its data access fails, and goes to the word it reads where it passes
(44_control_transfer.md R179). -/
theorem Effect.pc_of_ret {s t : State} (h : Effect s .ret t) :
    t.pc = if lsuFault s.params (s.reg .rsp) = true then s.pc else wordOfBytes (s.readByte (s.reg .rsp)) := by
  cases h with
  | loadFault _ ha hf => cases ha; exact (if_pos hf).symm
  | ret _ hf => exact (if_neg (Bool.eq_false_iff.1 hf)).symm
  | idle hi | storeFault hi => simp at hi
  | cmovTaken h | cmovNotTaken h | opq h | jump _ h => cases h

end Sys2Proof.Machine

namespace Sys2Proof

open Sys2Proof.Machine

/-- Settles O14: the outcome's status, with the failed data access read off the two addresses. -/
theorem instructionsSetOnlyTheirOwnStatus : Obligations.InstructionsSetOnlyTheirOwnStatus := by
  intro i s t h
  rw [(exec_effect h).status]
  congr 1
  rcases hs : i.storeAddress? s with _ | a
  · rcases hl : i.loadAddress? s with _ | a
    · rw [Instr.dataFault_of_no_access hs hl]; rfl
    · rw [Instr.dataFault_of_load hs hl]
  · rw [Instr.dataFault_of_store hs]

/-- Settles O24: `halt` is its one-byte encoding, its status write and its pc write. -/
theorem haltStopsAndAdvancesPc : Obligations.HaltStopsAndAdvancesPc :=
  ⟨rfl, execHalt_eq⟩

/-- Settles O27: each of the six rows is the datapath of the IOTRAP class. -/
theorem trapsOnlyAdvancePc : Obligations.TrapsOnlyAdvancePc := by
  intro i b s hrow
  simp only [trapRows, List.mem_cons, List.not_mem_nil, or_false, Prod.mk.injEq] at hrow
  obtain ⟨rfl, rfl⟩ | ⟨rfl, rfl⟩ | ⟨rfl, rfl⟩ | ⟨rfl, rfl⟩ | ⟨rfl, rfl⟩ | ⟨rfl, rfl⟩ := hrow <;>
    exact ⟨rfl, iotrapStep_eq s⟩

/-- Settles O33: both rows are the datapath of the OPQ class on their own operation, and neither operation writes a new
overflow. -/
theorem logicResultsAndFlags : Obligations.LogicResultsAndFlags := by
  intro ra rb s i b res hrow
  obtain ⟨op, hbytes, hexec, rfl, hov⟩ : ∃ op, encode i = [b, regByte ra rb] ∧ exec i s = opqStep op ra rb s ∧
      aluResult op (s.reg ra) (s.reg rb) = res ∧
      ∀ clears va vb old, aluOverflow clears op va vb old = if clears = true then false else old := by
    simp only [logicRows, List.mem_cons, List.not_mem_nil, or_false, Prod.mk.injEq] at hrow
    obtain ⟨rfl, rfl, rfl⟩ | ⟨rfl, rfl, rfl⟩ := hrow
    · exact ⟨.and, rfl, rfl, rfl, fun _ _ _ _ => rfl⟩
    · exact ⟨.xor, rfl, rfl, rfl, fun _ _ _ _ => rfl⟩
  refine ⟨hbytes, _, hexec.trans (opqStep_eq op ra rb s), rfl, fun r => State.reg_setReg .., rfl, ?zero, ?overflow,
    fun _ => rfl, ⟨rfl, rfl, rfl⟩, rfl, rfl⟩
  case zero => exact beq_eq_decide ..
  case overflow => exact hov ..

/-- Settles O39: only the outcome of OPQ writes a flag. -/
theorem onlyOpqWritesTheFlags : Obligations.OnlyOpqWritesTheFlags := fun i _ _ h hi =>
  (exec_effect h).sameFlags fun hopq => Bool.eq_false_iff.1 hi (i.isOpq_eq_true_iff.2 hopq)

/-- Settles O40: the registers outside the destinations, and id 15, which reads as a parameter that no instruction
writes. -/
theorem onlyDestinationsAreWritten : Obligations.OnlyDestinationsAreWritten := by
  intro i s t h
  obtain ⟨hparams, -, -⟩ := (exec_effect h).sameDriver
  exact ⟨(exec_effect h).sameRegsExcept, by rw [State.reg_noreg, State.reg_noreg, hparams]⟩

/-- Settles O41: memory is as before or has one word stored at the instruction's own address. -/
theorem onlyTheStoredBytesChange : Obligations.OnlyTheStoredBytesChange := by
  intro i s t h
  rcases (exec_effect h).mem_cases with hmem | ⟨a, v, ha, hmem⟩
  · exact ⟨fun _ _ _ _ => by rw [hmem], fun _ _ => by rw [hmem]⟩
  · refine ⟨fun a' ha' x hx => ?_, fun hnone => ?_⟩
    · cases ha.symm.trans ha'
      rw [hmem, Memory.read_writeWord_outside _ s.mem v hx]
    · cases ha.symm.trans hnone

/-- Settles O42: the outcomes' pc, class by class, with the class's length for that of the encoding. -/
theorem nextPcOutsideJumpsIsTheSequencers : Obligations.NextPcOutsideJumpsIsTheSequencers := by
  intro i s t h
  have heff := exec_effect h
  rw [length_encode]
  refine ⟨heff.pc_of_straight, fun a => heff.pc_of_store, fun a => heff.pc_of_load, ?call, ?ret⟩
  case call => rintro dest rfl; exact heff.pc_of_call
  case ret =>
    rintro rfl
    rw [heff.pc_of_ret]
    exact ⟨fun hf => if_pos hf, fun hf k hk hcap => by
      rw [if_neg (Bool.eq_false_iff.1 hf), State.wordByte_readByte hk hcap]⟩

end Sys2Proof
end

section
/-! Consequences across instructions: signed overflow and the signed comparisons after `subq` (43_alu.md R155, R156), and
the round trips through the stack (45_stack.md R191; 44_control_transfer.md R178, R179). -/

namespace Sys2Proof

open Sys2Proof.Machine

/-- The ADD line of 43_alu.md R155 says that the exact signed sum is outside the 64-bit range. -/
theorem aluOverflow_add_iff (clears old : Bool) (a b : Word) :
    aluOverflow clears .add a b old = true ↔
      ¬(-2 ^ 63 ≤ b.toInt + a.toInt ∧ b.toInt + a.toInt < 2 ^ 63) := by
  have h : aluOverflow clears .add a b old = b.saddOverflow a := by
    rw [BitVec.saddOverflow_eq, aluOverflow, bne, BEq.comm (a := a.msb)]
  rw [h, BitVec.saddOverflow, Bool.or_eq_true, decide_eq_true_iff, decide_eq_true_iff]
  omega

/-- The SUB line of 43_alu.md R155 says that the exact signed difference is outside the 64-bit range. -/
theorem aluOverflow_sub_iff (clears old : Bool) (a b : Word) :
    aluOverflow clears .sub a b old = true ↔
      ¬(-2 ^ 63 ≤ b.toInt - a.toInt ∧ b.toInt - a.toInt < 2 ^ 63) := by
  have h : aluOverflow clears .sub a b old = b.ssubOverflow a := by
    rw [BitVec.ssubOverflow_eq, aluOverflow]
    cases b.msb <;> cases a.msb <;> cases (b - a).msb <;> rfl
  rw [h, BitVec.ssubOverflow, Bool.or_eq_true, decide_eq_true_iff, decide_eq_true_iff]
  omega

/-- S differs from O after a subtraction exactly where the exact difference is negative: without overflow the result is
the exact difference, and with it the result is 2^64 away. -/
theorem sign_bne_overflow_sub (clears old : Bool) (a b : Word) :
    ((b - a).msb != aluOverflow clears .sub a b old) = decide (b.toInt < a.toInt) := by
  have hov := aluOverflow_sub_iff clears old a b
  have hsign : (b - a).msb = decide ((b - a).toInt < 0) := BitVec.msb_eq_toInt
  have hsub : (b - a).toInt = (b.toInt - a.toInt).bmod (2 ^ 64) := BitVec.toInt_sub ..
  have ha : -2 ^ 63 ≤ a.toInt ∧ a.toInt < 2 ^ 63 := ⟨BitVec.le_toInt a, BitVec.toInt_lt⟩
  have hb : -2 ^ 63 ≤ b.toInt ∧ b.toInt < 2 ^ 63 := ⟨BitVec.le_toInt b, BitVec.toInt_lt⟩
  rw [Bool.eq_iff_iff, bne_iff_ne, ne_eq, Bool.eq_iff_iff, hsign, hov, decide_eq_true_iff, decide_eq_true_iff, hsub,
    Int.bmod_def]
  omega

/-- The next state of `addq` and of `subq` has the flags that the ALU writes (43_alu.md R155). -/
theorem opqStep_flags {op : AluOp} {ra rb : RegId} {s t : State} (h : opqStep op ra rb s = .next t) :
    t.zeroFlag = (aluResult op (s.reg ra) (s.reg rb) == 0) ∧
    t.signFlag = (aluResult op (s.reg ra) (s.reg rb)).msb ∧
    t.overflowFlag = aluOverflow s.params.logicClearsOf op (s.reg ra) (s.reg rb) s.overflowFlag := by
  cases h
  exact ⟨rfl, rfl, rfl⟩

/-- Settles O43: O is the ALU's overflow, which is signed overflow of the exact operation. -/
theorem overflowFlagIsSignedOverflow : Obligations.OverflowFlagIsSignedOverflow := by
  intro ra rb s t u hadd hsub
  obtain ⟨-, -, ht⟩ := opqStep_flags hadd
  obtain ⟨-, -, hu⟩ := opqStep_flags hsub
  rw [ht, hu]
  exact ⟨aluOverflow_add_iff .., aluOverflow_sub_iff ..⟩

/-- The conditions of 43_alu.md R156 in the two facts they read: Z, and whether S differs from O. -/
theorem Cond.holds_eq (z s o : Bool) :
    Cond.holds .le z s o = (z || (s != o)) ∧ Cond.holds .l z s o = (s != o) ∧ Cond.holds .e z s o = z ∧
    Cond.holds .ne z s o = !z ∧ Cond.holds .ge z s o = !(s != o) ∧ Cond.holds .g z s o = (!z && !(s != o)) := by
  cases z <;> cases s <;> cases o <;> decide

/-- Settles O44: after `subq` Z says that the operands are equal and S differs from O exactly where the destination was
below the source, so each condition is its comparison. -/
theorem conditionsCompareAfterSubtract : Obligations.ConditionsCompareAfterSubtract := by
  intro ra rb s t h
  obtain ⟨hz, hs, ho⟩ := opqStep_flags h
  have hzero : t.zeroFlag = decide (s.reg rb = s.reg ra) := by
    rw [hz, Bool.eq_iff_iff, beq_iff_eq, decide_eq_true_iff]
    exact sub_eq_zero
  have hless : (t.signFlag != t.overflowFlag) = decide ((s.reg rb).toInt < (s.reg ra).toInt) := by
    rw [hs, ho]
    exact sign_bne_overflow_sub ..
  have heq : s.reg rb = s.reg ra ↔ (s.reg rb).toInt = (s.reg ra).toInt := BitVec.toInt_inj.symm
  obtain ⟨hle, hl, he, hne, hge, hg⟩ := Cond.holds_eq t.zeroFlag t.signFlag t.overflowFlag
  simp only [State.condition, hle, hl, he, hne, hge, hg]
  simp only [hzero, hless, Bool.or_eq_true, Bool.and_eq_true, Bool.not_eq_true', decide_eq_true_iff,
    decide_eq_false_iff_not, ne_eq, true_and]
  refine ⟨?le, ?ge, ?g⟩
  case le => rw [heq]; omega
  case ge => omega
  case g => rw [heq]; omega

/-- Settles O45: the pop reads the slot that the push wrote, whose bytes are the pushed word's, and its increment undoes
the push's decrement. -/
theorem pushThenPopMovesTheValue : Obligations.PushThenPopMovesTheValue := by
  intro ra rb s hrsp hnoreg hfit
  obtain ⟨-, -, hpush⟩ := pushStoresTheOldValueOrFaults ra s
  obtain ⟨t, ht, htpc, htrsp, hslot, -, htregs, -, ⟨hparams, -, -⟩, -, -⟩ := hpush (lsuFault_of_fits hfit)
  obtain ⟨-, -, hpop⟩ := popLoadsAndAdvancesTheStackOrFaults rb t
  rw [htrsp, hparams] at hpop
  obtain ⟨u, v, hu, hupc, hread, huregs, -⟩ := hpop (lsuFault_of_fits hfit)
  have hv : v = s.reg ra := word_eq_of_bytes fun k hk =>
    (hread k hk (by omega)).trans (hslot k hk (by omega))
  have hursp : u.reg .rsp = s.reg .rsp := by
    rw [huregs, if_pos ⟨rfl, .inl hrsp⟩, BitVec.sub_add_cancel]
  refine ⟨t, u, ht, hu, ?value, hursp, ?others, ?pc⟩
  case value => rw [huregs, if_neg fun h => hrsp h.1, if_pos ⟨rfl, hnoreg⟩, hv]
  case others =>
    intro r hr
    by_cases hr' : r = .rsp
    · rw [hr', hursp]
    · rw [huregs, if_neg fun h => hr' h.1, if_neg fun h => List.ne_of_not_mem_cons hr h.1]
      exact htregs r (by simpa using hr')
  case pc => rw [hupc, htpc, BitVec.add_assoc]; rfl

/-- Settles O46: the return reads the slot that the call wrote, whose bytes are the return address's, and its increment
undoes the call's decrement. -/
theorem callThenReturnComesBack : Obligations.CallThenReturnComesBack := by
  intro dest s hfit
  obtain ⟨-, -, hcall⟩ := callPushesTheReturnAddressOrFaults dest s
  obtain ⟨t, ht, htpc, htrsp, hslot, houtside, htregs, -, ⟨hparams, -, -⟩, -, -⟩ := hcall (lsuFault_of_fits hfit)
  obtain ⟨-, -, hret⟩ := returnPopsThePcOrFaults t
  rw [htrsp, hparams] at hret
  obtain ⟨u, hu, hursp, hread, huregs, -, humem, -⟩ := hret (lsuFault_of_fits hfit)
  refine ⟨t, u, ht, hu, htpc, ?pc, ?registers, fun x hx => (humem x).trans (houtside x hx)⟩
  case pc => exact word_eq_of_bytes fun k hk => (hread k hk (by omega)).trans (hslot k hk (by omega))
  case registers =>
    intro r _
    by_cases hr : r = .rsp
    · rw [hr, hursp, BitVec.sub_add_cancel]
    · rw [huregs r (by simpa using hr), htregs r (by simpa using hr)]

end Sys2Proof
end

section
/-! What a fetch answers by the bytes at pc (30_encoding.md R67, R80, R81, R84): the validity condition of an extracted
record is the written list of illegal encodings, and an encoded instruction fetches as its own record. -/

namespace Sys2Proof

theorem rawRecord_eq_none {pc : Word} {bs : List Byte} (h : 13 ≤ (hiNibble (byteAt bs 0)).toNat) :
    rawRecord pc bs = none := by
  rw [rawRecord, (Icode.ofNibble_eq_none _).2 h]

theorem le_of_rawRecord_eq_none {pc : Word} {bs : List Byte} (h : rawRecord pc bs = none) :
    13 ≤ (hiNibble (byteAt bs 0)).toNat := by
  by_contra hlt
  obtain ⟨c, hc⟩ := Option.ne_none_iff_exists'.1 (mt (Icode.ofNibble_eq_none _).1 hlt)
  obtain ⟨r, hr, -⟩ := exists_rawRecord_of_ofNibble pc hc
  cases h.symm.trans hr

@[simp] theorem RegId.isReg_noreg : RegId.noreg.isReg = false := rfl

theorem Record.valid_eq_false_iff (p : Params) (r : Record) :
    r.valid p = false ↔ r.icode.badSentinel ≤ r.ifun.toNat ∨ r.registersOk p = false := by
  rw [Record.valid, Bool.and_eq_false_iff, Record.functionOk, decide_eq_false_iff_not, Nat.not_lt]

/-- An extracted record fails its class's validity condition exactly where its bytes are on the list of illegal
encodings (30_encoding.md R84). -/
theorem illegalBytes_eq_not_valid (p : Params) {pc : Word} {bs : List Byte} {r : Record}
    (h : rawRecord pc bs = some r) : illegalBytes p (byteAt bs 0) (byteAt bs 1) = !r.valid p := by
  unfold rawRecord at h
  split at h
  · cases h
  next c hc =>
    cases h
    have hclass : hiNibble (byteAt bs 0) = c.nibble := (Icode.nibble_of_ofNibble hc).symm
    rw [Bool.eq_iff_iff, Bool.not_eq_true', Record.valid_eq_false_iff]
    cases c <;>
      simp [illegalBytes, hclass, Icode.nibble, Record.registersOk, Icode.badSentinel, Icode.hasRegByte,
        RegId.isReg_ofNibble]
    case pushq => cases p.pushqRaAllowsNoreg <;> simp <;> omega
    case popq => cases p.popqRaAllowsNoreg <;> simp <;> omega
    all_goals omega

/-- The length column by class code is the class's length. -/
theorem lengthOfClass_of_ofNibble {n : Nibble} {c : Icode} (h : Icode.ofNibble n = some c) :
    lengthOfClass n.toNat = c.length := by
  revert n; cases c <;> decide

end Sys2Proof

namespace Sys2Proof.Machine

/-- A valid record that passes the bound is what the fetch answers (30_encoding.md R67). -/
theorem fetch_of_valid {p : Params} {m : Memory} {pc : Word} {r : Record} (hlt : pc.toNat < p.memSize)
    (hraw : rawRecord pc (fetchWindow p m pc.toNat) = some r) (hvalid : r.valid p = true)
    (hbound : exceedsFetchBound p pc r.icode.length = false) : fetch p m pc = ⟨r, none⟩ := by
  rw [fetch_of_rawRecord hlt hraw, checkBound, hbound, checkValid, hvalid]
  rfl

/-- The window begins with the bytes of an encoded instruction that stands at its address and exists. -/
theorem fetchWindow_eq_encode_append {p : Params} {m : Memory} {a : Nat} {i : Instr}
    (hbytes : ∀ k, k < (encode i).length → m.read (a + k) = (encode i).getD k 0)
    (hfit : a + (encode i).length ≤ p.memSize) :
    ∃ rest, fetchWindow p m a = encode i ++ rest := by
  have hlen : (encode i).length ≤ (fetchWindow p m a).length := by
    rw [length_encode]
    exact (Icode.length_bounds i.icode_ne_invalid).2
  refine ⟨(fetchWindow p m a).drop (encode i).length, ?_⟩
  have htake : (fetchWindow p m a).take (encode i).length = encode i := by
    rw [take_eq_map_byteAt hlen]
    conv_rhs => rw [← List.take_length (l := encode i), take_eq_map_byteAt (le_refl _)]
    refine List.map_congr_left fun k hk => ?_
    have hk : k < (encode i).length := List.mem_range.1 hk
    rw [byteAt_fetchWindow p m a k (hk.trans_le hlen), fetchByte_of_lt (by omega), hbytes k hk, byteAt]
  conv_lhs => rw [← List.take_append_drop (encode i).length (fetchWindow p m a), htake]

/-- The bytes of a well-formed instruction at pc that passes the fetch bound fetch as its record, with no status. -/
theorem fetch_of_encode {p : Params} {m : Memory} {pc : Word} {i : Instr} (hwf : i.wellFormed p = true)
    (hbytes : ∀ k, k < (encode i).length → m.read (pc.toNat + k) = (encode i).getD k 0)
    (hbound : exceedsFetchBound p pc (encode i).length = false) : fetch p m pc = ⟨i.record pc, none⟩ := by
  have hle := le_of_not_exceedsFetchBound hbound
  have hpos : 1 ≤ (encode i).length := length_encode i ▸ (Icode.length_bounds i.icode_ne_invalid).1
  obtain ⟨rest, hwindow⟩ := fetchWindow_eq_encode_append (p := p) hbytes (by omega)
  exact fetch_of_valid (by omega) (hwindow ▸ rawRecord_encode_append hwf pc rest)
    ((i.valid_record p pc).trans hwf) (length_encode i ▸ hbound)

/-- A byte of an unrecognized class fetches as INVALID with no bound check (30_encoding.md R79). -/
theorem fetch_of_unrecognized {p : Params} {m : Memory} {pc : Word} (hlt : pc.toNat < p.memSize)
    (h : 13 ≤ (hiNibble (m.read pc.toNat)).toNat) : fetch p m pc = ⟨unrecognizedRecord, some .invalidInstruction⟩ := by
  rw [← byteAt_fetchWindow_zero hlt] at h
  rw [fetch, if_neg (Nat.not_le.2 hlt), rawRecord_eq_none h]

end Sys2Proof.Machine

namespace Sys2Proof

open Sys2Proof.Machine

/-- Settles O6: the fetch-address check is the first. -/
theorem fetchBeyondCapacityIsAddressError : Obligations.FetchBeyondCapacityIsAddressError := fun _ _ _ h =>
  if_pos h

/-- Settles O7: the extraction finds no class, and what the fetch then answers has no bound check. -/
theorem unrecognizedClassIsInvalid : Obligations.UnrecognizedClassIsInvalid := fun _ _ _ hlt h =>
  fetch_of_unrecognized hlt h

/-- Settles O5: below the capacity a fetch finds no class, or a record that fails the bound, is on the list of illegal
encodings, or is valid. -/
theorem fetchStatusIsBoundThenLegality : Obligations.FetchStatusIsBoundThenLegality := by
  intro p m pc hlt
  have hb0 : byteAt (fetchWindow p m pc.toNat) 0 = m.read pc.toNat := byteAt_fetchWindow_zero hlt
  have hb1 : byteAt (fetchWindow p m pc.toNat) 1 = fetchByte p m (pc.toNat + 1) :=
    byteAt_fetchWindow p m pc.toNat 1 (by decide)
  intro b0 b1 c sum
  rcases fetch_cases p m pc with ⟨hge, -⟩ | ⟨-, hraw, hf⟩ | ⟨r, -, hraw, hr⟩
  · omega
  · have hclass : 13 ≤ (hiNibble (m.read pc.toNat)).toNat := hb0 ▸ le_of_rawRecord_eq_none hraw
    have hillegal : illegalBytes p b0 b1 = true := by
      simp only [illegalBytes, b0, decide_eq_true hclass, Bool.true_or]
    rw [hf, if_neg fun h => absurd h.1 (Nat.not_lt.2 hclass), if_pos hillegal]
    exact ⟨rfl, fun _ => Option.some_ne_none _, fun _ => rfl⟩
  · obtain ⟨hclass, -, -, hicode⟩ := rawRecord_fields hraw
    rw [hb0] at hclass
    have hc : c < 13 := by
      by_contra h
      cases hclass.symm.trans ((Icode.ofNibble_eq_none _).2 (Nat.le_of_not_lt h))
    have hbound : (c < 13 ∧ (p.memSize < sum ∨ (p.fetchBoundInclusive = true ∧ sum = p.memSize))) ↔
        exceedsFetchBound p pc r.icode.length = true := by
      rw [exceedsFetchBound_eq_true_iff, ← lengthOfClass_of_ofNibble hclass]
      exact and_iff_right hc
    have hillegal : illegalBytes p b0 b1 = !r.valid p := by
      rw [← illegalBytes_eq_not_valid p hraw, hb0, hb1]
    rw [if_congr hbound rfl rfl, hillegal]
    rcases hr with ⟨hb, hf⟩ | ⟨hb, hv, hf⟩ | ⟨hb, hv, hf⟩
    · rw [hf, hb]
      exact ⟨rfl, fun _ => Option.some_ne_none _, fun _ => rfl⟩
    · rw [hf, hb, hv]
      exact ⟨rfl, fun _ => Option.some_ne_none _, fun _ => rfl⟩
    · rw [hf, hb, hv]
      exact ⟨rfl, fun h => (hicode h).elim, fun h => (h rfl).elim⟩

/-- Settles O48: the store puts the byte of `nop` at each of the eight places, where it fetches as the instruction. -/
theorem storedCodeIsFetched : Obligations.StoredCodeIsFetched := by
  intro ra rb disp s k hval hk hcap hspace
  obtain ⟨-, -, hstore⟩ := storeWritesEightBytesOrFaults ra disp rb s
  obtain ⟨t, ht, -, hbytes, -, -, -, ⟨hparams, -, -⟩, -⟩ := hstore (lsuFault_of_fits (by omega))
  refine ⟨t, ht, ?_⟩
  intro pc
  have hpc : pc.toNat = (disp + s.reg rb).toNat + k := BitVec.toNat_ofNat .. |>.trans (Nat.mod_eq_of_lt (by omega))
  have hnop : t.mem.read pc.toNat = 0x10#8 := by
    rw [hpc, hbytes k hk (by omega), hval]
    interval_cases k <;> decide
  rw [hparams]
  refine fetch_of_encode (i := .nop) rfl (fun j hj => ?bytes) (exceedsFetchBound_eq_false_of_lt ?bound)
  case bytes =>
    obtain rfl : j = 0 := Nat.lt_one_iff.1 hj
    exact hnop
  case bound =>
    rw [length_encode]
    simp only [Instr.icode, Icode.length]
    omega

end Sys2Proof
end

section
/-! The step of a run: what the post-step check and the loop's exit leave unchanged, and from them the rules over every
step (40_sequencer.md R101 to R104; 60_exceptions.md R240 to R243). -/

namespace Sys2Proof.Machine

section
variable (s : State)

@[simp] theorem State.postCheck_params : s.postCheck.params = s.params := by rw [State.postCheck_eq]
@[simp] theorem State.postCheck_regs : s.postCheck.regs = s.regs := by rw [State.postCheck_eq]
@[simp] theorem State.postCheck_pc : s.postCheck.pc = s.pc := by rw [State.postCheck_eq]
@[simp] theorem State.postCheck_zeroFlag : s.postCheck.zeroFlag = s.zeroFlag := by rw [State.postCheck_eq]
@[simp] theorem State.postCheck_signFlag : s.postCheck.signFlag = s.signFlag := by rw [State.postCheck_eq]
@[simp] theorem State.postCheck_overflowFlag : s.postCheck.overflowFlag = s.overflowFlag := by rw [State.postCheck_eq]
@[simp] theorem State.postCheck_status :
    s.postCheck.status = if s.params.memSize ≤ s.pc.toNat then .addressError else s.status := by
  rw [State.postCheck_eq]
@[simp] theorem State.postCheck_count : s.postCheck.count = s.count := by rw [State.postCheck_eq]
@[simp] theorem State.postCheck_last : s.postCheck.last = s.last := by rw [State.postCheck_eq]
@[simp] theorem State.postCheck_mem : s.postCheck.mem = s.mem := by rw [State.postCheck_eq]
@[simp] theorem State.postCheck_draws : s.postCheck.draws = s.draws := by rw [State.postCheck_eq]

@[simp] theorem State.loopExit_params : s.loopExit.params = s.params := by rw [State.loopExit_eq]
@[simp] theorem State.loopExit_regs : s.loopExit.regs = s.regs := by rw [State.loopExit_eq]
@[simp] theorem State.loopExit_zeroFlag : s.loopExit.zeroFlag = s.zeroFlag := by rw [State.loopExit_eq]
@[simp] theorem State.loopExit_signFlag : s.loopExit.signFlag = s.signFlag := by rw [State.loopExit_eq]
@[simp] theorem State.loopExit_overflowFlag : s.loopExit.overflowFlag = s.overflowFlag := by rw [State.loopExit_eq]
@[simp] theorem State.loopExit_status : s.loopExit.status = s.status := by rw [State.loopExit_eq]
@[simp] theorem State.loopExit_count : s.loopExit.count = s.count := by rw [State.loopExit_eq]
@[simp] theorem State.loopExit_last : s.loopExit.last = s.last := by rw [State.loopExit_eq]
@[simp] theorem State.loopExit_mem : s.loopExit.mem = s.mem := by rw [State.loopExit_eq]
@[simp] theorem State.loopExit_draws : s.loopExit.draws = s.draws := by rw [State.loopExit_eq]

end

/-- The loop's exit corrects pc to the last record's address after ADDRESS_ERROR (40_sequencer.md R104, D18). -/
theorem State.loopExit_pc_of_addressError {s : State} {r : Record} (h : s.status = .addressError)
    (hlast : s.last = some r) : s.loopExit.pc = correctedPc r := by
  rw [State.loopExit_pc, if_pos h, hlast]

/-- After any other status it changes nothing. -/
theorem State.loopExit_of_ne {s : State} (h : s.status ≠ .addressError) : s.loopExit = s := by
  rw [State.loopExit_eq, State.loopExit_pc, if_neg h]

/-- Where the correction is the pc already, a step's end leaves pc. -/
theorem State.pc_postCheck_loopExit {s : State} {r : Record} (hlast : s.last = some r) (hpc : correctedPc r = s.pc) :
    s.postCheck.loopExit.pc = s.pc := by
  simp only [State.loopExit_pc, State.postCheck_last, State.postCheck_pc, hlast, hpc, ite_self]

/-- The state in which the instruction of record `r` runs: the count advanced and the record kept (10_state.md R30,
R31). -/
abbrev State.counted (s : State) (r : Record) : State := { s with count := s.count + 1, last := some r }

theorem archStep_next (s : State) : ∃ t, archStep s = .next t := by
  rcases archStep_cases s with ⟨_, _, h⟩ | ⟨_, _, _, _, _, h⟩ <;> exact ⟨_, h⟩

/-- An architectural step counts one, keeps the record it fetched and changes no parameter. -/
theorem archStep_driver {s t : State} (h : archStep s = .next t) :
    t.params = s.params ∧ t.count = s.count + 1 ∧ t.last = some (fetch s.params s.mem s.pc).record := by
  rcases archStep_cases s with ⟨st, -, ha⟩ | ⟨-, i, -, u, hu, ha⟩ <;> cases ha.symm.trans h
  · simp
  · obtain ⟨hparams, hcount, hlast⟩ := (exec_effect hu).sameDriver
    simp [hparams, hcount, hlast]

/-- The memory after an architectural step: as before, or with one word stored. -/
theorem archStep_mem_cases {s t : State} (h : archStep s = .next t) :
    t.mem = s.mem ∨ ∃ a v, t.mem = s.mem.writeBytes s.params.memSize a (wordBytes v) := by
  rcases archStep_cases s with ⟨st, -, ha⟩ | ⟨-, i, -, u, hu, ha⟩ <;> cases ha.symm.trans h
  · exact .inl (State.postCheck_mem _)
  · rw [State.postCheck_mem]
    exact (exec_effect hu).mem_cases.imp_right fun ⟨a, v, _, hmem⟩ => ⟨a.toNat, v, hmem⟩

/-- An architectural step that stays RUNNING left pc below the capacity and fetched a valid record. -/
theorem archStep_running {s t : State} (h : archStep s = .next t) (hrun : t.status = .running) :
    t.pc.toNat < s.params.memSize ∧ (fetch s.params s.mem s.pc).record.valid s.params = true := by
  obtain ⟨hparams, -, -⟩ := archStep_driver h
  rcases archStep_cases s with ⟨st, hst, ha⟩ | ⟨hnone, i, -, u, -, ha⟩ <;> cases ha.symm.trans h
  · rw [State.postCheck_status] at hrun
    obtain ⟨-, rfl | ⟨rfl, -⟩⟩ := fetch_of_status hst <;> split at hrun <;> cases hrun
  · obtain ⟨-, -, hvalid, -⟩ := fetch_of_no_status hnone
    refine ⟨?_, hvalid⟩
    rw [State.postCheck_status] at hrun
    split at hrun
    · cases hrun
    next hlt =>
      rw [← hparams]
      simpa using hlt

/-- The addresses of a data access depend on the registers and parameters alone. -/
theorem dataFault_counted (i : Instr) (s : State) (r : Record) : i.dataFault (s.counted r) = i.dataFault s := by
  cases i <;> rfl

end Sys2Proof.Machine

namespace Sys2Proof

open Sys2Proof.Machine

/-- Settles O9: the fetch's status stands, since a pc beyond the capacity has ADDRESS_ERROR already, and the exit's
correction is the INVALID record's valP. -/
theorem invalidRecordChangesOnlyTheStatus : Obligations.InvalidRecordChangesOnlyTheStatus := by
  intro s hrun hinvalid
  rcases archStep_cases s with ⟨st, hst, ha⟩ | ⟨hnone, -⟩
  · obtain ⟨-, hkind⟩ := fetch_of_status hst
    have hterminal : st ≠ .running ∧ st ≠ .halted := by rcases hkind with rfl | ⟨rfl, -⟩ <;> decide
    refine ⟨st, hst, hterminal.1, hterminal.2, (step_of_archStep hrun ha).trans ?_⟩
    have hstands : (if s.params.memSize ≤ s.pc.toNat then .addressError else st) = st := by
      rcases hkind with rfl | ⟨rfl, hlt⟩
      · exact ite_self _
      · exact if_neg (Nat.not_le.2 hlt)
    have hcorrected : correctedPc (fetch s.params s.mem s.pc).record = (fetch s.params s.mem s.pc).record.valP := by
      rw [correctedPc, hinvalid]
      exact BitVec.add_zero _
    rw [State.loopExit_eq, State.loopExit_pc, State.postCheck_eq]
    simp only [hstands, hcorrected]
  · obtain ⟨-, -, hvalid, -⟩ := fetch_of_no_status hnone
    exact (Record.icode_of_valid hvalid hinvalid).elim

/-- Settles O10: every architectural step answers a next state, and a step needs RUNNING. -/
theorem everyRunningStateSteps : Obligations.EveryRunningStateSteps := by
  intro s
  refine ⟨fun hrun => ?_, fun hended => ?_⟩
  · obtain ⟨t, ht⟩ := archStep_next s
    exact ⟨_, step_of_archStep hrun ht⟩
  · rw [step]
    cases hs : s.status with
    | running => exact (hended hs).elim
    | _ => rfl

/-- Settles O11: both forms of the step end in the pc check. -/
theorem pcBeyondCapacityForcesAddressError : Obligations.PcBeyondCapacityForcesAddressError := by
  intro s t h hpc
  rw [← (archStep_driver h).1] at hpc
  obtain ⟨u, rfl⟩ : ∃ u : State, t = u.postCheck := by
    rcases archStep_cases s with ⟨_, _, ha⟩ | ⟨_, _, _, _, _, ha⟩ <;>
      exact ⟨_, Host.Outcome.next.inj (h.symm.trans ha)⟩
  rw [State.postCheck_params, State.postCheck_pc] at hpc
  rw [State.postCheck_status, if_pos hpc]

/-- Settles O12: the loop's exit writes the corrected pc after ADDRESS_ERROR, and nothing after another status. -/
theorem finalPcIsCorrectedAfterAddressError : Obligations.FinalPcIsCorrectedAfterAddressError := by
  intro s t h
  obtain ⟨-, u, hu, rfl⟩ := archStep_of_step h
  obtain ⟨-, -, hlast⟩ := archStep_driver hu
  rw [State.loopExit_status]
  exact ⟨fun herr => State.loopExit_pc_of_addressError herr hlast, fun hne => by rw [State.loopExit_of_ne hne, hu]⟩

/-- Settles O13: the driver's items are those of the architectural step, and the loop's exit keeps them. -/
theorem everyStepCountsAndKeepsItsRecord : Obligations.EveryStepCountsAndKeepsItsRecord := by
  intro s t h
  obtain ⟨-, u, hu, rfl⟩ := archStep_of_step h
  obtain ⟨hparams, hcount, hlast⟩ := archStep_driver hu
  rw [State.loopExit_count, State.loopExit_last, State.loopExit_params]
  exact ⟨hcount, hlast, hparams⟩

/-- Settles O15: the pc check decides over the status of the instruction's outcome, and HALT makes no data access. -/
theorem stepStatusFollowsThePriority : Obligations.StepStatusFollowsThePriority := by
  intro s t i hrun hnone hi h
  obtain ⟨hparams, -, -⟩ := archStep_driver h
  rcases archStep_cases s with ⟨st, hst, -⟩ | ⟨-, j, hj, u, hu, ha⟩
  · cases hnone.symm.trans hst
  · cases hi.symm.trans hj
    cases ha.symm.trans h
    change _ = if s.params.memSize ≤ _ then _ else if i.dataFault s = true then _ else _
    rw [State.postCheck_params] at hparams
    rw [State.postCheck_status, State.postCheck_pc, hparams, (exec_effect hu).status, dataFault_counted]
    by_cases hhalt : i = .halt
    · subst hhalt
      rfl
    · simp only [hhalt, if_false, hrun]

/-- Settles O16: a step stores one word or none, ends RUNNING only below the capacity after a valid record, and counts
what it fetched. -/
theorem everyStepKeepsTheInvariant : Obligations.EveryStepKeepsTheInvariant := by
  intro s t hinv h
  obtain ⟨hwf, hwithin, -⟩ := hinv
  obtain ⟨-, u, hu, rfl⟩ := archStep_of_step h
  obtain ⟨hparams, hcount, hlast⟩ := archStep_driver hu
  have hmem : u.mem.wf = true ∧ u.mem.within s.params.memSize = true := by
    rcases archStep_mem_cases hu with hm | ⟨a, v, hm⟩ <;> rw [hm]
    · exact ⟨hwf, hwithin⟩
    · exact ⟨Memory.wf_writeBytes _ a _ hwf, Memory.within_writeBytes a _ hwithin⟩
  refine ⟨?wf, ?within, ?pc, ?lastValid, ?count⟩
  case wf => rw [State.loopExit_mem]; exact hmem.1
  case within => rw [State.loopExit_mem, State.loopExit_params, hparams]; exact hmem.2
  case pc =>
    intro hrun
    rw [State.loopExit_status] at hrun
    rw [State.loopExit_of_ne (by rw [hrun]; decide), hparams]
    exact (archStep_running hu hrun).1
  case lastValid =>
    intro hrun
    rw [State.loopExit_status] at hrun
    rw [State.lastValid, State.loopExit_last, hlast, State.loopExit_params, hparams]
    exact (archStep_running hu hrun).2
  case count => simp [hcount, hlast]

/-- Settles O8: the bytes at pc fetch as the instruction's record, so the step is of the form that runs it. -/
theorem stepRunsTheInstructionAtPc : Obligations.StepRunsTheInstructionAtPc := by
  intro s i hrun hwf _ hbytes hbound
  have hfetch := fetch_of_encode hwf hbytes hbound
  refine ⟨i.record s.pc, rfl, i.instr?_record s.pc, by rw [length_encode]; rfl, ?_⟩
  rcases archStep_cases s with ⟨st, hst, -⟩ | ⟨-, j, hj, u, hu, ha⟩
  · rw [hfetch] at hst
    cases hst
  · rw [hfetch] at hj hu
    cases (i.instr?_record s.pc).symm.trans hj
    rw [hu]
    exact step_of_archStep hrun ha

/-- Settles O25: the step runs `halt`, whose pc is the same with and without the correction; its pc check fails only
where the byte at 0 is the whole memory, since the bound counts pc twice. -/
theorem haltEndsTheRunAfterItsByte : Obligations.HaltEndsTheRunAfterItsByte := by
  intro s hrun hbyte hlt hbound
  have hbytes : ∀ k, k < (encode .halt).length → s.mem.read (s.pc.toNat + k) = (encode .halt).getD k 0 := by
    intro k hk
    obtain rfl : k = 0 := Nat.lt_one_iff.1 hk
    exact hbyte
  obtain ⟨r, hicode, -, hvalP, hstep⟩ := stepRunsTheInstructionAtPc s .halt hrun rfl hlt hbytes hbound
  let u : State := { s with status := .halted, pc := s.pc + 1, count := s.count + 1, last := some r }
  have hstep : step s = .next u.postCheck.loopExit := hstep
  refine ⟨_, hstep, ?pc, ?status, fun r' _ => ?registers, ?flags, fun x => ?memory, ?count⟩
  case pc =>
    have hcorrected : correctedPc r = s.pc + 1 := by
      rw [correctedPc, hicode, hvalP]
      exact BitVec.add_zero _
    exact State.pc_postCheck_loopExit rfl hcorrected
  case status =>
    have hle := le_of_not_exceedsFetchBound hbound
    have hone : s.params.memSize ≤ (s.pc + 1).toNat ↔ s.pc = 0 ∧ s.params.memSize = 1 := by
      bv_omega
    rw [State.loopExit_status, State.postCheck_status]
    exact if_congr hone rfl rfl
  case registers => exact State.reg_congr (by simp [u]) (by simp [u]) r'
  case flags => exact ⟨by simp [u], by simp [u], by simp [u]⟩
  case memory => simp [u]
  case count => simp [u]

end Sys2Proof
end

section
/-! The states a run starts from (10_state.md R32; 20_memory.md R47; 70_reset_and_hazards.md R260). -/

namespace Sys2Proof.Machine

/-- The loaded image is in canonical form and lists no address at or beyond the capacity. -/
theorem wf_and_within_loadPieces (cap : Nat) (pieces : List (Nat × List Byte)) :
    (loadPieces cap pieces).wf = true ∧ (loadPieces cap pieces).within cap = true := by
  induction pieces using List.reverseRecOn with
  | nil => exact ⟨rfl, rfl⟩
  | append_singleton pieces piece ih =>
    obtain ⟨hwf, hwithin⟩ := ih
    rw [loadPieces_append_singleton]
    exact ⟨Memory.wf_writeBytes cap _ _ hwf, Memory.within_writeBytes _ _ hwithin⟩

end Sys2Proof.Machine

namespace Sys2Proof

open Sys2Proof.Machine

/-- Settles O18: the image has the memory clauses, and the others are reset values. -/
theorem bootMeetsTheInvariant : Obligations.BootMeetsTheInvariant := by
  intro p pieces entry hentry
  obtain ⟨hwf, hwithin⟩ := wf_and_within_loadPieces p.memSize pieces
  exact ⟨hwf, hwithin, fun _ => hentry, fun _ => rfl, iff_of_true rfl rfl⟩

/-- Settles O17: the reset state is the boot with no piece and the entry point 0. -/
theorem resetMeetsTheInvariant : Obligations.ResetMeetsTheInvariant :=
  bootMeetsTheInvariant defaultParams [] defaultEntryPoint (by decide)

/-- Settles O19: every register of the zero file reads 0, and the other values are the fields of the reset state. -/
theorem resetValuesAreTheSpecs : Obligations.ResetValuesAreTheSpecs := by
  intro p entry
  exact ⟨fun r hr => (RegFile.get_zero _ r).trans (if_neg hr), rfl, rfl, rfl, rfl, rfl, rfl, rfl, fun _ => rfl⟩

end Sys2Proof
end

section
/-! The loops of the driver against the step (40_sequencer.md R104 to R106), by induction on the fuel. -/

namespace Sys2Proof.Machine

theorem coreRun_succ_of_next {M : Host.Core} {s t : M.State} (k : Nat) (h : M.step s = .next t) :
    M.run (k + 1) s = M.run k t := by
  rw [Host.Core.run, h]

theorem coreRun_succ_of_fault {M : Host.Core} {s : M.State} {r : M.Fault} (k : Nat) (h : M.step s = .fault r) :
    M.run (k + 1) s = .fault r := by
  rw [Host.Core.run, h]

theorem run_core_succ {s t : State} (k : Nat) (h : step s = .next t) :
    Host.Core.run core (k + 1) s = Host.Core.run core k t :=
  coreRun_succ_of_next (M := core) k h

/-- From a terminal status only the run of no steps answers a next state. -/
theorem run_core_of_ended {s t : State} {k : Nat} (hs : s.status ≠ .running) (h : Host.Core.run core k s = .next t) :
    t = s := by
  cases k with
  | zero => exact (Host.Outcome.next.inj h).symm
  | succ k => cases (coreRun_succ_of_fault (M := core) k ((everyRunningStateSteps s).2 hs)).symm.trans h

end Sys2Proof.Machine

namespace Sys2Proof

open Sys2Proof.Machine

/-- Settles O21: the loop and the machine take the same architectural step, and the step that ends the run has made the
exit's correction already, so that no further step is possible. -/
theorem driverLoopIsIteratedStep : Obligations.DriverLoopIsIteratedStep := by
  intro n
  induction n with
  | zero =>
    intro s t hrun
    rw [runLoop_zero hrun]
    refine iff_of_false (Option.some_ne_none t).symm ?_
    rintro ⟨k, hk, hs, ht⟩
    obtain rfl : k = 0 := Nat.le_zero.1 hk
    cases hs
    exact ht hrun
  | succ n ih =>
    intro s t hrun
    obtain ⟨u, hu⟩ := archStep_next s
    have hstep : step s = .next u.loopExit := step_of_archStep hrun hu
    have hfirst : (∃ k, k ≤ n + 1 ∧ Host.Core.run core k s = .next t ∧ t.status ≠ .running) ↔
        ∃ k, k ≤ n ∧ Host.Core.run core k u.loopExit = .next t ∧ t.status ≠ .running := by
      constructor
      · rintro ⟨k, hk, hs, ht⟩
        cases k with
        | zero => cases hs; exact (ht hrun).elim
        | succ k => exact ⟨k, Nat.le_of_succ_le_succ hk, run_core_succ k hstep ▸ hs, ht⟩
      · rintro ⟨k, hk, hs, ht⟩
        exact ⟨k + 1, Nat.succ_le_succ hk, (run_core_succ k hstep).trans hs, ht⟩
    rw [runLoop_succ n hrun hu, hfirst]
    by_cases hend : u.status = .running
    · rw [State.loopExit_of_ne (by rw [hend]; decide)]
      exact ih u t hend
    · have hexit : u.loopExit.status ≠ .running := by rwa [State.loopExit_status]
      rw [runLoop_ended n hend]
      constructor
      · intro h
        cases h
        exact ⟨0, Nat.zero_le n, rfl, hexit⟩
      · rintro ⟨k, -, hs, -⟩
        rw [run_core_of_ended hexit hs]

/-- Settles O22: the two loops branch alike, and every step adds one entry and one count. -/
theorem tracedLoopEndsAsTheSilentLoop : Obligations.TracedLoopEndsAsTheSilentLoop := by
  intro n
  induction n with
  | zero =>
    intro s
    by_cases hrun : s.status = .running
    · rw [tracedLoop_zero hrun, runLoop_zero hrun]
      exact ⟨rfl, fun t h => (Option.some_ne_none t h.symm).elim⟩
    · rw [tracedLoop_ended 0 hrun, runLoop_ended 0 hrun]
      exact ⟨rfl, fun t ht => Option.some.inj ht ▸ State.loopExit_count s⟩
  | succ n ih =>
    intro s
    by_cases hrun : s.status = .running
    · obtain ⟨u, hu⟩ := archStep_next s
      obtain ⟨-, hcount, -⟩ := archStep_driver hu
      obtain ⟨hsame, hlength⟩ := ih u
      rw [tracedLoop_succ n hrun hu, runLoop_succ n hrun hu]
      refine ⟨hsame, fun t ht => ?_⟩
      rw [hlength t ht, hcount, List.length_cons, Nat.add_assoc, Nat.add_comm 1]
    · rw [tracedLoop_ended _ hrun, runLoop_ended _ hrun]
      exact ⟨rfl, fun t ht => Option.some.inj ht ▸ State.loopExit_count s⟩

end Sys2Proof
end

section
/-! Bytes at or beyond MEMSIZE do not exist (20_memory.md R41): replacing them changes neither what a fetch or a load
sees nor what a step does, so the step commutes with the replacement. -/

namespace Sys2Proof.Machine

/-- Two memories that agree on every byte below the capacity. -/
def Memory.AgreeBelow (cap : Nat) (m m' : Memory) : Prop := ∀ x, x < cap → m'.read x = m.read x

/-- The state with its memory replaced. -/
abbrev State.withMem (s : State) (m : Memory) : State := { s with mem := m }

theorem AgreeBelowCapacity.exists_mem {s s' : State} (h : AgreeBelowCapacity s s') :
    ∃ m, s' = s.withMem m ∧ Memory.AgreeBelow s.params.memSize s.mem m := by
  refine ⟨s'.mem, ?_, h.bytes⟩
  rw [← h.rest]

theorem agreeBelowCapacity_withMem {s : State} {m : Memory} (h : Memory.AgreeBelow s.params.memSize s.mem m) :
    AgreeBelowCapacity s (s.withMem m) :=
  ⟨rfl, h⟩

theorem Memory.AgreeBelow.writeBytes {cap : Nat} {m m' : Memory} (h : Memory.AgreeBelow cap m m') (a : Nat)
    (bs : List Byte) : Memory.AgreeBelow cap (m.writeBytes cap a bs) (m'.writeBytes cap a bs) := by
  intro x hx
  rw [Memory.read_writeBytes, Memory.read_writeBytes, h x hx]

/-- A store leaves every byte at or beyond the capacity. -/
theorem Memory.read_writeBytes_of_le {cap x : Nat} (m : Memory) (a : Nat) (bs : List Byte) (h : cap ≤ x) :
    (m.writeBytes cap a bs).read x = m.read x := by
  rw [Memory.read_writeBytes, if_neg fun ⟨_, _, hlt⟩ => Nat.not_lt.2 h hlt]

theorem fetch_congr {p : Params} {m m' : Memory} (h : Memory.AgreeBelow p.memSize m m') (pc : Word) :
    fetch p m' pc = fetch p m pc := by
  have hbyte (a : Nat) : fetchByte p m' a = fetchByte p m a := by
    unfold fetchByte
    split
    next hlt => exact h a hlt
    next => rfl
  have hwindow : fetchWindow p m' pc.toNat = fetchWindow p m pc.toNat := by simp only [fetchWindow, hbyte]
  rw [fetch, fetch, hwindow]

theorem State.readByte_withMem {s : State} {m : Memory} (h : Memory.AgreeBelow s.params.memSize s.mem m) (a : Word) :
    (s.withMem m).readByte a = s.readByte a := by
  funext k
  unfold State.readByte
  split
  next hlt => exact h _ hlt
  next => rfl

theorem popqWriteback_withMem (ra : RegId) (valM valE : Word) (s : State) (m : Memory) :
    popqWriteback ra valM valE (s.withMem m) = (popqWriteback ra valM valE s).withMem m := by
  unfold popqWriteback
  cases s.params.popqRspGetsIncrement <;> rfl

theorem State.postCheck_withMem (s : State) (m : Memory) :
    (s.withMem m).postCheck = s.postCheck.withMem m := by
  rw [State.postCheck_eq, State.postCheck_eq]

theorem State.loopExit_withMem (s : State) (m : Memory) :
    (s.withMem m).loopExit = s.loopExit.withMem m := by
  rw [State.loopExit_eq, State.loopExit_pc, State.loopExit_eq s, State.loopExit_pc]

theorem cmovStep_withMem {c : Cond} {ra rb : RegId} {s t : State} (m : Memory) (h : cmovStep c ra rb s = .next t) :
    t.mem = s.mem ∧ cmovStep c ra rb (s.withMem m) = .next (t.withMem m) := by
  have hcond : (s.withMem m).condition c = s.condition c := rfl
  rw [cmovStep_eq] at h ⊢
  rw [hcond]
  cases hc : s.condition c <;> rw [hc] at h <;> cases h <;> exact ⟨rfl, rfl⟩

/-- An instruction runs alike on two memories that agree below the capacity, and leaves them agreeing. -/
theorem exec_withMem {i : Instr} {s t : State} {m : Memory} (hm : Memory.AgreeBelow s.params.memSize s.mem m)
    (h : exec i s = .next t) :
    ∃ m', exec i (s.withMem m) = .next (t.withMem m') ∧
      Memory.AgreeBelow s.params.memSize t.mem m' := by
  have hread := State.readByte_withMem hm
  cases i
  case rrmovq | cmovle | cmovl | cmove | cmovne | cmovge | cmovg =>
    obtain ⟨hmem, hexec⟩ := cmovStep_withMem m h
    exact ⟨m, hexec, hmem ▸ hm⟩
  case rmmovq ra disp rb =>
    obtain ⟨hfault, hstore⟩ := imp_and_imp_of_bool_cases (execRmmovq_cases ra disp rb (s.withMem m))
    rcases execRmmovq_cases ra disp rb s with ⟨hf, he⟩ | ⟨hf, he⟩ <;> cases he.symm.trans h
    · exact ⟨m, hfault hf, hm⟩
    · exact ⟨_, hstore hf, hm.writeBytes _ _⟩
  case call dest =>
    obtain ⟨hfault, hpush⟩ := imp_and_imp_of_bool_cases (execCall_cases dest (s.withMem m))
    rcases execCall_cases dest s with ⟨hf, he⟩ | ⟨hf, he⟩ <;> cases he.symm.trans h
    · exact ⟨m, hfault hf, hm⟩
    · exact ⟨_, hpush hf, hm.writeBytes _ _⟩
  case pushq ra =>
    obtain ⟨hfault, hpush⟩ := imp_and_imp_of_bool_cases (execPushq_cases ra (s.withMem m))
    rcases execPushq_cases ra s with ⟨hf, he⟩ | ⟨hf, he⟩ <;> cases he.symm.trans h
    · exact ⟨m, hfault hf, hm⟩
    · exact ⟨_, hpush hf, hm.writeBytes _ _⟩
  case mrmovq disp rb ra =>
    obtain ⟨hfault, hload⟩ := imp_and_imp_of_bool_cases (execMrmovq_cases disp rb ra (s.withMem m))
    rcases execMrmovq_cases disp rb ra s with ⟨hf, he⟩ | ⟨hf, he⟩ <;> cases he.symm.trans h
    · exact ⟨m, hfault hf, hm⟩
    · rw [hread] at hload
      exact ⟨m, hload hf, hm⟩
  case ret =>
    obtain ⟨hfault, hpop⟩ := imp_and_imp_of_bool_cases (execRet_cases (s.withMem m))
    rcases execRet_cases s with ⟨hf, he⟩ | ⟨hf, he⟩ <;> cases he.symm.trans h
    · exact ⟨m, hfault hf, hm⟩
    · rw [hread] at hpop
      exact ⟨m, hpop hf, hm⟩
  case popq ra =>
    obtain ⟨hfault, hpop⟩ := imp_and_imp_of_bool_cases (execPopq_cases ra (s.withMem m))
    rcases execPopq_cases ra s with ⟨hf, he⟩ | ⟨hf, he⟩ <;> cases he.symm.trans h
    · exact ⟨m, hfault hf, hm⟩
    · rw [hread] at hpop
      refine ⟨m, (hpop hf).trans ?_, ?_⟩
      · exact congrArg (fun u : State => Host.Outcome.next (u.setPc (s.pc + 2)))
          (popqWriteback_withMem ra _ _ { s with draws := _ } m)
      · rw [State.setPc_mem, popqWriteback_mem]
        exact hm
  all_goals
    cases h
    exact ⟨m, rfl, hm⟩

/-- An architectural step likewise. -/
theorem archStep_withMem {s t : State} {m : Memory} (hm : Memory.AgreeBelow s.params.memSize s.mem m)
    (h : archStep s = .next t) :
    ∃ m', archStep (s.withMem m) = .next (t.withMem m') ∧
      Memory.AgreeBelow s.params.memSize t.mem m' := by
  have hfetch : fetch s.params m s.pc = fetch s.params s.mem s.pc := fetch_congr hm s.pc
  rcases archStep_cases s with ⟨st, hst, ha⟩ | ⟨hnone, i, hi, u, hu, ha⟩ <;> cases ha.symm.trans h <;>
    rcases archStep_cases (s.withMem m) with ⟨st', hst', ha'⟩ | ⟨hnone', i', hi', u', hu', ha'⟩
  · rw [hfetch] at hst' ha'
    cases hst.symm.trans hst'
    refine ⟨m, ha'.trans (congrArg Host.Outcome.next ?_), by rwa [State.postCheck_mem]⟩
    exact State.postCheck_withMem
      { s with status := st, count := s.count + 1, last := some (fetch s.params s.mem s.pc).record } m
  · rw [hfetch] at hnone'
    cases hst.symm.trans hnone'
  · rw [hfetch] at hst'
    cases hnone.symm.trans hst'
  · rw [hfetch] at hi' hu'
    cases hi.symm.trans hi'
    obtain ⟨m', hexec, hm'⟩ := exec_withMem (s := s.counted (fetch s.params s.mem s.pc).record) hm hu
    cases hu'.symm.trans hexec
    exact ⟨m', ha'.trans (congrArg Host.Outcome.next (State.postCheck_withMem u m')), by rwa [State.postCheck_mem]⟩

end Sys2Proof.Machine

namespace Sys2Proof

open Sys2Proof.Machine

/-- Settles O23: a step stores below the capacity or not at all, and it commutes with replacing the bytes beyond. -/
theorem noByteBeyondCapacityMatters : Obligations.NoByteBeyondCapacityMatters := by
  intro s s' t hagree h
  obtain ⟨m, rfl, hm⟩ := hagree.exists_mem
  obtain ⟨hrun, u, hu, rfl⟩ := archStep_of_step h
  obtain ⟨hparams, -, -⟩ := archStep_driver hu
  refine ⟨fun x hx => ?beyond, ?commutes⟩
  case beyond =>
    rw [State.loopExit_mem]
    rcases archStep_mem_cases hu with hmem | ⟨a, v, hmem⟩ <;> rw [hmem]
    exact Memory.read_writeBytes_of_le s.mem a _ hx
  case commutes =>
    obtain ⟨m', hu', hm'⟩ := archStep_withMem hm hu
    refine ⟨_, step_of_archStep hrun hu', ?_⟩
    rw [State.loopExit_withMem u m']
    refine agreeBelowCapacity_withMem ?_
    rwa [State.loopExit_params, State.loopExit_mem, hparams]

end Sys2Proof
end

section
/-! Stage values that no rule sets (10_state.md R29, D30). -/

namespace Sys2Proof.Machine

/-- A read of memory_wb_pc sets valM alone. -/
theorem State.afterRead_eq (s : State) (a : Word) (v : StageValues) :
    s.afterRead a v = { v with valM := (s.afterRead a v).valM } := by
  rw [State.afterRead]
  rcases s.readStage_cases a v with ⟨_, h⟩ | ⟨_, h⟩ <;> rw [h]

section
variable (s : State) (a : Word) (v : StageValues)

@[simp] theorem State.afterRead_condition : (s.afterRead a v).condition = v.condition := by rw [State.afterRead_eq]
@[simp] theorem State.afterRead_valA : (s.afterRead a v).valA = v.valA := by rw [State.afterRead_eq]
@[simp] theorem State.afterRead_valB : (s.afterRead a v).valB = v.valB := by rw [State.afterRead_eq]
@[simp] theorem State.afterRead_valE : (s.afterRead a v).valE = v.valE := by rw [State.afterRead_eq]

end

end Sys2Proof.Machine

namespace Sys2Proof

open Sys2Proof.Machine

/-- A record has the stage values of the instruction it stands for, which is of its class, or none set. -/
theorem Record.stageValues_cases (r : Record) (s : State) :
    r.stageValues s = idleExecute ∨ ∃ i : Instr, i.icode = r.icode ∧ r.stageValues s = i.stageValues s := by
  rw [Record.stageValues]
  rcases hi : r.instr? with _ | i
  · exact .inl rfl
  · exact .inr ⟨i, Record.icode_of_instr? hi, rfl⟩

section
variable (i : Instr) (s : State)

theorem Instr.stageValues_condition (h : i.icode ∉ [Icode.cmov, .jump]) : (i.stageValues s).condition = false := by
  cases i
  case rrmovq | cmovle | cmovl | cmove | cmovne | cmovge | cmovg | jmp | jle | jl | je | jne | jge | jg => simp
      [Instr.icode] at h
  case mrmovq | ret | popq => exact State.afterRead_condition ..
  all_goals rfl

theorem Instr.stageValues_valA (h : i.icode ∉ [Icode.cmov, .rmmovq, .opq, .ret, .pushq, .popq]) :
    (i.stageValues s).valA = 0 := by
  cases i
  case rrmovq | cmovle | cmovl | cmove | cmovne | cmovge | cmovg | rmmovq | addq | subq | andq | xorq | ret |
      pushq | popq => simp [Instr.icode] at h
  case mrmovq => exact State.afterRead_valA ..
  all_goals rfl

theorem Instr.stageValues_valB (h : i.icode ∉ [Icode.rmmovq, .mrmovq, .opq, .call, .ret, .pushq, .popq]) :
    (i.stageValues s).valB = 0 := by
  cases i
  case rmmovq | mrmovq | addq | subq | andq | xorq | call | ret | pushq | popq => simp [Instr.icode] at h
  all_goals rfl

theorem Instr.stageValues_valE
    (h : i.icode ∉ [Icode.cmov, .irmovq, .rmmovq, .mrmovq, .opq, .call, .ret, .pushq, .popq]) :
    (i.stageValues s).valE = 0 := by
  cases i
  case rrmovq | cmovle | cmovl | cmove | cmovne | cmovge | cmovg | irmovq | rmmovq | mrmovq | addq | subq | andq |
      xorq | call | ret | pushq | popq => simp [Instr.icode] at h
  all_goals rfl

theorem Instr.stageValues_valM (h : i.icode ∉ [Icode.mrmovq, .ret, .popq]) : (i.stageValues s).valM = 0 := by
  cases i
  case mrmovq | ret | popq => simp [Instr.icode] at h
  all_goals rfl

end

/-- Settles O51: a record that stands for no instruction sets no value, and an instruction sets those of its class. -/
theorem unsetStageValuesAreZero : Obligations.UnsetStageValuesAreZero := by
  intro r s
  rcases r.stageValues_cases s with h | ⟨i, hicode, h⟩ <;> rw [h]
  · exact ⟨fun _ => rfl, fun _ => rfl, fun _ => rfl, fun _ => rfl, fun _ => rfl⟩
  · rw [← hicode]
    exact ⟨i.stageValues_condition s, i.stageValues_valA s, i.stageValues_valB s, i.stageValues_valE s,
      i.stageValues_valM s⟩

end Sys2Proof
end

section
/-! The disassembler (47_disassembler.md): which records render as nothing, and the walk of a code region. -/

namespace Sys2Proof

open Sys2Proof.Machine

/-- A record that stands for an instruction has a function code in its class's range (30_encoding.md R66). -/
theorem Record.functionOk_of_instr? {r : Record} {i : Instr} (h : r.instr? = some i) : r.functionOk = true := by
  unfold Record.instr? at h
  split at h
  case h_34 => cases h
  all_goals simp_all [Record.functionOk, Icode.badSentinel]

theorem Record.instr?_eq_none_iff (r : Record) : r.instr? = none ↔ r.icode.badSentinel ≤ r.ifun.toNat := by
  have hok : r.functionOk = true ↔ r.ifun.toNat < r.icode.badSentinel := decide_eq_true_iff
  rw [← Nat.not_lt, ← hok, Option.eq_none_iff_forall_ne_some]
  refine ⟨fun h hf => ?_, fun h i hi => h (Record.functionOk_of_instr? hi)⟩
  obtain ⟨i, hi⟩ := Record.instr?_of_functionOk hf
  exact h i hi

/-- The mnemonics are given for exactly the function codes in range (47_disassembler.md R218). -/
theorem mnemonic?_eq_none_iff (c : Icode) (f : Nibble) : mnemonic? c f = none ↔ c.badSentinel ≤ f.toNat := by
  revert f; cases c <;> decide

theorem mnemonic?_ne_some_empty (c : Icode) (f : Nibble) : mnemonic? c f ≠ some "" := by
  revert f; cases c <;> decide

theorem render_eq_empty_iff (r : Record) : render r = "" ↔ mnemonic? r.icode r.ifun = none := by
  rw [render]
  rcases hm : mnemonic? r.icode r.ifun with _ | m
  · exact iff_of_true rfl rfl
  · refine iff_of_false ?_ (Option.some_ne_none m)
    have hne : m ≠ "" := fun h => mnemonic?_ne_some_empty _ _ (h ▸ hm)
    rcases operandText? r with _ | ops
    · exact hne
    · simp [hne]

/-- Settles O52: each text is a closed evaluation of the renderer on the record the spec writes out. -/
theorem specRecordsRenderAsWritten : Obligations.SpecRecordsRenderAsWritten := by
  unfold Obligations.SpecRecordsRenderAsWritten
  decide

/-- Settles O53: both the mnemonic and the instruction are missing exactly outside the class's range of function
codes. -/
theorem onlyNonInstructionsRenderEmpty : Obligations.OnlyNonInstructionsRenderEmpty := fun r => by
  rw [render_eq_empty_iff, mnemonic?_eq_none_iff, Record.instr?_eq_none_iff]

end Sys2Proof

namespace Sys2Proof.Machine

section
variable {p : Params} {m : Memory} {a : Word}

theorem fetch_status_eq_none (h : (fetch p m a).record.icode ≠ .invalid) : (fetch p m a).status = none := by
  rcases hs : (fetch p m a).status with _ | st
  · rfl
  · exact (h (fetch_of_status hs).1).elim

/-- In a memory that lies in the address space, the valP of a fetched instruction is the exact sum (30_encoding.md R62,
R81). -/
theorem fetch_valP_toNat (hcap : p.memSize ≤ 2 ^ 64) (h : (fetch p m a).record.icode ≠ .invalid) :
    (fetch p m a).record.valP.toNat = a.toNat + (fetch p m a).record.icode.length := by
  obtain ⟨hlt, hraw, -, hbound⟩ := fetch_of_no_status (fetch_status_eq_none h)
  obtain ⟨-, -, hvalP, -⟩ := rawRecord_fields hraw
  have hle := le_of_not_exceedsFetchBound hbound
  have hlen := Icode.length_bounds h
  rw [hvalP, BitVec.toNat_add, BitVec.toNat_ofNat]
  omega

theorem walkCode_of_le {limit : Nat} (n : Nat) (h : limit ≤ a.toNat) : walkCode p m limit n a = [] := by
  cases n with
  | zero => rfl
  | succ n => rw [walkCode, if_neg (Nat.not_lt.2 h)]

theorem walkCode_of_invalid (limit n : Nat) (h : (fetch p m a).record.icode = .invalid) :
    walkCode p m limit n a = [] := by
  cases n with
  | zero => rfl
  | succ n =>
    rw [walkCode]
    split
    · exact if_pos h
    · rfl

theorem walkCode_succ {limit : Nat} (n : Nat) (hlt : a.toNat < limit)
    (h : (fetch p m a).record.icode ≠ .invalid) :
    walkCode p m limit (n + 1) a =
      lineAt m a (fetch p m a).record :: walkCode p m limit n (fetch p m a).record.valP := by
  rw [walkCode, if_pos hlt]
  exact if_neg h

/-- Fuel for one line per byte up to the limit is enough, and more changes nothing: every instruction is at least one
byte long. -/
theorem walkCode_fuel (hcap : p.memSize ≤ 2 ^ 64) {limit n n' : Nat} (hn : limit ≤ a.toNat + n)
    (hn' : limit ≤ a.toNat + n') : walkCode p m limit n a = walkCode p m limit n' a := by
  induction n generalizing n' a with
  | zero => rw [walkCode_of_le 0 hn, walkCode_of_le n' hn]
  | succ n ih =>
    by_cases hlt : a.toNat < limit
    · by_cases hinv : (fetch p m a).record.icode = .invalid
      · rw [walkCode_of_invalid _ _ hinv, walkCode_of_invalid _ _ hinv]
      · obtain ⟨k, rfl⟩ : ∃ k, n' = k + 1 := ⟨n' - 1, by omega⟩
        have hvalP := fetch_valP_toNat hcap hinv
        have hlen := Icode.length_bounds hinv
        rw [walkCode_succ n hlt hinv, walkCode_succ k hlt hinv, ih (n' := k) (by omega) (by omega)]
    · rw [walkCode_of_le _ (Nat.le_of_not_lt hlt), walkCode_of_le _ (Nat.le_of_not_lt hlt)]

/-- The line of a fetched instruction has as many bytes as its class is long (47_disassembler.md R219). -/
theorem lineAt_fetch (hcap : p.memSize ≤ 2 ^ 64) (h : (fetch p m a).record.icode ≠ .invalid) :
    lineAt m a (fetch p m a).record =
      ⟨a, (List.range (fetch p m a).record.icode.length).map (fun k => m.read (a.toNat + k)),
        render (fetch p m a).record⟩ := by
  rw [lineAt, fetch_valP_toNat hcap h, Nat.add_sub_cancel_left]

/-- Every line of a walk is the line of an instruction fetched in the region. -/
theorem of_mem_walkCode (hcap : p.memSize ≤ 2 ^ 64) {limit n : Nat} {l : Line} (h : l ∈ walkCode p m limit n a) :
    a.toNat ≤ l.address.toNat ∧ l.address.toNat < limit ∧ (fetch p m l.address).record.icode ≠ .invalid ∧
    l = lineAt m l.address (fetch p m l.address).record := by
  induction n generalizing a with
  | zero => cases h
  | succ n ih =>
    by_cases hlt : a.toNat < limit
    · by_cases hinv : (fetch p m a).record.icode = .invalid
      · rw [walkCode_of_invalid _ _ hinv] at h
        cases h
      · rw [walkCode_succ n hlt hinv] at h
        rcases List.mem_cons.1 h with rfl | h
        · exact ⟨le_refl _, hlt, hinv, rfl⟩
        · obtain ⟨hle, hrest⟩ := ih h
          rw [fetch_valP_toNat hcap hinv] at hle
          exact ⟨by omega, hrest⟩
    · rw [walkCode_of_le _ (Nat.le_of_not_lt hlt)] at h
      cases h

/-- The bytes of a fetched instruction in memory are its encoding. -/
theorem map_read_eq_encode {i : Instr} (h : (fetch p m a).status = none)
    (hi : (fetch p m a).record.instr? = some i) :
    (List.range (fetch p m a).record.icode.length).map (fun k => m.read (a.toNat + k)) = encode i := by
  obtain ⟨-, hraw, hvalid, hbound⟩ := fetch_of_no_status h
  have hle := le_of_not_exceedsFetchBound hbound
  obtain ⟨-, hlen⟩ := Icode.length_bounds (Record.icode_of_valid hvalid)
  rw [← Record.bytes_of_instr? hi (Record.registersOk_of_valid hvalid), Record.bytes_of_rawRecord hraw hlen,
    take_eq_map_byteAt hlen]
  refine List.map_congr_left fun k hk => ?_
  have hk := List.mem_range.1 hk
  rw [byteAt_fetchWindow p m a.toNat k (by omega), fetchByte_of_lt (by omega)]

end

end Sys2Proof.Machine

namespace Sys2Proof

open Sys2Proof.Machine

/-- Settles O54: after one line the walk goes on at valP, which is the exact sum, with fuel for the rest of the region. -/
theorem codeWalkEmitsOneLineAndGoesOn : Obligations.CodeWalkEmitsOneLineAndGoesOn := by
  intro p m start size hcap
  refine ⟨rfl, walkCode_of_invalid _ _, fun hsize hinv => ?_, fun _ _ => rfl⟩
  obtain ⟨n, rfl⟩ : ∃ n, size = n + 1 := ⟨size - 1, by omega⟩
  have hvalP := fetch_valP_toNat hcap hinv
  have hlen := Icode.length_bounds hinv
  rw [disassembleCode, walkCode_succ n (by omega) hinv, lineAt_fetch hcap hinv, disassembleCode, hvalP]
  congr 1
  by_cases hrest : (fetch p m start).record.icode.length ≤ n + 1
  · rw [show start.toNat + (fetch p m start).record.icode.length + (n + 1 - (fetch p m start).record.icode.length) =
      start.toNat + (n + 1) by omega]
    exact walkCode_fuel hcap (by omega) (by omega)
  · rw [walkCode_of_le _ (by omega), walkCode_of_le _ (by omega)]

/-- Settles O55: each line is that of a fetched instruction, whose bytes in memory are its encoding. -/
theorem walkedLinesAreEncodedInstructions : Obligations.WalkedLinesAreEncodedInstructions := by
  intro p m start size l hcap hl
  obtain ⟨hle, hlt, hinv, hline⟩ := of_mem_walkCode hcap hl
  have hstatus := fetch_status_eq_none hinv
  obtain ⟨-, -, hvalid, -⟩ := fetch_of_no_status hstatus
  obtain ⟨i, hi⟩ := Record.instr?_of_functionOk (Record.functionOk_of_valid hvalid)
  rw [lineAt_fetch hcap hinv] at hline
  refine ⟨hle, hlt, congrArg Line.text hline, i, hi,
    Instr.wellFormed_of_instr? hi (Record.registersOk_of_valid hvalid), ?_⟩
  exact (congrArg Line.bytes hline).trans (map_read_eq_encode hstatus hi)

end Sys2Proof
end
